-- ==== Sys2Proof/Word.lean ====
section
/-! DEFINITION. The block's vocabulary: its byte and frame types, the named alternatives of the spec (decoder state,
unit, pulse classes, error classes, trace records, results) and the events the outside presents to it. -/

namespace Sys2Proof

/-- One cell of a buffer: 8 bits (20_memory.md R40). -/
abbrev Byte := BitVec 8

/-- Seven byte cells indexed 0 to 6: the working buffer, the completed-frame buffer, what TAKE returns, the argument
of VALIDATE and TEMP (20_memory.md R40, R41). -/
abbrev Frame := Vector Byte 7

/-- The values of the register `st` (10_state.md R11). -/
inductive DecoderState
  | idle
  | receiving
deriving DecidableEq, Repr

/-- The values of `CFG.UNIT` (10_state.md R24). -/
inductive TempUnit
  | celsius
  | fahrenheit
deriving DecidableEq, Repr

/-- The five rows of the duration table (30_encoding.md R61). -/
inductive PulseClass
  | startMarker
  | ignored
  | bit0
  | bit1
  | violation
deriving DecidableEq, Repr

/-- One low pulse on the line: the timestamp of its falling edge and its duration in µs (00_scope.md, glossary "low
pulse"; 30_encoding.md R73, `LOW d`). -/
structure LowPulse where
  fall : Nat
  dur  : Nat
deriving DecidableEq, Repr

/-- The four error classes (60_exceptions.md R140 to R144). `badPulse` carries the duration `note BadPulse(d)` names. -/
inductive ErrorClass
  | spuriousEdge
  | badPulse (d : Nat)
  | checksumMismatch
  | overrun
deriving DecidableEq, Repr

/-- The three records of the debug trace (60_exceptions.md R160). -/
inductive TraceRecord
  | start (d : Nat)
  | bit (d : Nat) (b : Bool)
  | frameComplete
deriving DecidableEq, Repr

/-- What an operation delivers with `return`: one bit (AVAIL, VALIDATE), seven bytes (TAKE), a rational (TEMP)
(30_encoding.md R68, column "result"). -/
inductive Result
  | bit (b : Bool)
  | bytes (f : Frame)
  | temperature (t : Rat)
deriving DecidableEq, Repr

/-- Who issues an operation (60_exceptions.md R151). `within` marks the rows that are only performed as a part or a
selected case of another operation (30_encoding.md R68). -/
inductive Issuer
  | environment
  | edgeContext
  | consumerContext
  | within
deriving DecidableEq, Repr

/-- What the outside can present to the block: the nine operations of 00_scope.md R6 as the trace notation spells
them (30_encoding.md R72), and one whole transmission, the pseudo-operation FRAME (30_encoding.md R63, R73). -/
inductive Event
  | reset
  | begin
  | setcfg (unit : TempUnit) (debug : Bool)
  | fall (now : Nat)
  | rise (now : Nat)
  | avail
  | take
  | validate (f : Frame)
  | temp (f : Frame)
  | frame (ps : List LowPulse)
deriving DecidableEq, Repr

end Sys2Proof
end

