-- ==== Sys2Proof/Config.lean ====
section
/-! DEFINITION. What is fixed for one machine: the protocol and calibration constants of 00_scope.md R4, the
parameters of 00_scope.md R5, and the free values behind the parameters the spec leaves unspecified. -/

namespace Sys2Proof

namespace Config

/-- Least duration of a start marker, µs (00_scope.md R4). -/
abbrev startMinUs : Nat := 7000
/-- Greatest duration of a start marker, µs (00_scope.md R4). -/
abbrev startMaxUs : Nat := 10000
/-- A bit-0 pulse is strictly shorter than this, µs (00_scope.md R4). -/
abbrev bit0MaxUs : Nat := 900
/-- Least duration of a bit-1 pulse, µs (00_scope.md R4). -/
abbrev bit1MinUs : Nat := 1200
/-- Greatest duration of a bit-1 pulse, µs (00_scope.md R4). -/
abbrev bit1MaxUs : Nat := 2000
/-- Bytes of a frame (00_scope.md R4). -/
abbrev frameBytes : Nat := 7
/-- Bits of a frame (00_scope.md R4). -/
abbrev frameBits : Nat := 56
/-- Branch guard on rawX, strict (00_scope.md R4). -/
abbrev xThresh : Nat := 836
/-- Branch guard on rawY, strict (00_scope.md R4). -/
abbrev yThresh : Nat := 221
/-- Raw count to working value, exactly 1/1000 (00_scope.md R4). -/
def scale : Rat := 1 / 1000
/-- X-branch coefficient of x^3: -278.33 (00_scope.md R4). -/
def xa3 : Rat := -27833 / 100
/-- X-branch coefficient of x^2: 491.944 (00_scope.md R4). -/
def xa2 : Rat := 491944 / 1000
/-- X-branch coefficient of x: -451.444 (00_scope.md R4). -/
def xa1 : Rat := -451444 / 1000
/-- X-branch constant: 310.668 (00_scope.md R4). -/
def xa0 : Rat := 310668 / 1000
/-- Y-branch coefficient of y^3: -224.2 (00_scope.md R4). -/
def ya3 : Rat := -2242 / 10
/-- Y-branch coefficient of y^2: 385.9 (00_scope.md R4). -/
def ya2 : Rat := 3859 / 10
/-- Y-branch coefficient of y: -327.1 (00_scope.md R4). -/
def ya1 : Rat := -3271 / 10
/-- Y-branch constant: 171 (00_scope.md R4). -/
def ya0 : Rat := 171
/-- Fahrenheit factor 1.8 (00_scope.md R4). -/
def fMul : Rat := 18 / 10
/-- Fahrenheit offset 32.0 (00_scope.md R4). -/
def fAdd : Rat := 32
/-- The spec's default of `TEMP_EPS`, 0: the exact result (00_scope.md R5, 43_frame_interpreter.md R130). -/
def tempEpsDefault : Rat := 0
/-- The spec's default of `TS_MOD`, 2^32 (00_scope.md R5). PRESUMED, safe: 93_implementation_defined.md G1 takes it
from general knowledge, and every statement is about every modulus (log entry 1). -/
abbrev tsModDefault : Nat := 4294967296

/-- FREE VALUE behind `F_RESET`, the contents of F after reset (00_scope.md R5, 10_state.md R30; log entry 2). -/
opaque fReset : Frame
/-- FREE VALUE behind `W_RESET`, the contents of W after reset (00_scope.md R5, 10_state.md R30; log entry 2). -/
opaque wReset : Frame
/-- FREE VALUE behind `T0_RESET`, the register t0 after reset, reduced modulo `TS_MOD` where it is used (00_scope.md
R5, 10_state.md R30; log entry 2). -/
opaque t0Reset : Nat

end Config

/-- The parameters the source leaves open (00_scope.md R5). They are constants of one machine: `State` carries them so
that a statement about every state is a statement about every choice of them, and no operation writes them. -/
structure Params where
  /-- `TS_MOD`: the modulus of the timestamps, greater than `START_MAX_US`. -/
  tsMod      : Nat
  /-- `F_RESET`: F after reset. -/
  fReset     : Frame
  /-- `W_RESET`: W after reset. -/
  wReset     : Frame
  /-- `T0_RESET`: t0 after reset, in `[0, TS_MOD)`. -/
  t0Reset    : Nat
  /-- `UNIT_RESET`: CFG.UNIT after reset. -/
  unitReset  : TempUnit
  /-- `DEBUG_RESET`: CFG.DEBUG after reset. -/
  debugReset : Bool
  /-- `TEMP_EPS`: the error bound of a finite-precision realisation of TEMP, not negative (43_frame_interpreter.md R130).
  The architected result is exact, so no operation reads it; `Machine.TempRealises` does (log entry 13). -/
  tempEps    : Rat
deriving DecidableEq, Repr

/-- The constraints of 00_scope.md R5 on the parameters. -/
abbrev Params.Ok (p : Params) : Prop := Config.startMaxUs < p.tsMod ∧ p.t0Reset < p.tsMod ∧ 0 ≤ p.tempEps

/-- The machine `State.reset` describes: the spec's defaults where 00_scope.md R5 gives one, the free values where it
says "any value". -/
def Params.default : Params where
  tsMod      := Config.tsModDefault
  fReset     := Config.fReset
  wReset     := Config.wReset
  t0Reset    := Config.t0Reset % Config.tsModDefault
  unitReset  := .celsius
  debugReset := false
  tempEps    := Config.tempEpsDefault

end Sys2Proof
end

