-- ==== Sys2Proof/Machine/Flags.lean ====
section
/-! DEFINITION. The one computed flag of the block, the checksum test. `pend` and `rdy` are registers and stand in State;
there are no other condition codes (10_state.md R22). -/

namespace Sys2Proof.Machine

/-- `cksum(f) = (f[0] + ... + f[5]) mod 256`, an unsigned sum (30_encoding.md R65). -/
def cksum (f : Frame) : Nat :=
  (f[0].toNat + f[1].toNat + f[2].toNat + f[3].toNat + f[4].toNat + f[5].toNat) % 256

/-- The result bit of VALIDATE: the sum equals byte 6 (43_frame_interpreter.md R121). -/
def checksumValid (f : Frame) : Bool := decide (cksum f = f[6].toNat)

end Sys2Proof.Machine
end

