-- ==== Sys2Proof/Machine/Operands.lean ====
section
/-! DEFINITION. Every operand form of the block: durations and their bands, the bits of a byte and of a frame in wire
order, the raw fields of a frame, and the two calibration cubics. -/

namespace Sys2Proof.Machine

/-! ### Durations (30_encoding.md R61, R62; 40_edge_capture.md R83) -/

/-- The start-marker band, both ends inclusive (30_encoding.md R61, row 1). -/
def isStart (d : Nat) : Bool := decide (Config.startMinUs ≤ d) && decide (d ≤ Config.startMaxUs)

/-- The bit-0 band, strictly below 900 µs (30_encoding.md R61, row 3). -/
def isBit0 (d : Nat) : Bool := decide (d < Config.bit0MaxUs)

/-- The bit-1 band, both ends inclusive (30_encoding.md R61, row 4). -/
def isBit1 (d : Nat) : Bool := decide (Config.bit1MinUs ≤ d) && decide (d ≤ Config.bit1MaxUs)

/-- The duration table: which row a low pulse of `d` µs falls in, by decoder state (30_encoding.md R61). -/
def classify (st : DecoderState) (d : Nat) : PulseClass :=
  match st with
  | .idle => if isStart d then .startMarker else .ignored
  | .receiving => if isBit0 d then .bit0 else if isBit1 d then .bit1 else .violation

/-- `lowDur = (now - t0) mod TS_MOD` on mathematical integers (40_edge_capture.md R83; 00_scope.md section 5, `mod`). -/
def lowDur (tsMod t0 now : Nat) : Nat := (((now : Int) - (t0 : Int)) % (tsMod : Int)).toNat

/-- The timestamp of the rising edge that ends a low pulse (30_encoding.md R73, `LOW d`). -/
def riseAt (tsMod : Nat) (p : LowPulse) : Nat := (p.fall + p.dur) % tsMod

/-! ### Bits in wire order (20_memory.md R42, R43; 30_encoding.md R63) -/

/-- The eight bits of a byte, least significant first (20_memory.md R43). -/
def byteBits (v : Byte) : List Bool :=
  [v.getLsbD 0, v.getLsbD 1, v.getLsbD 2, v.getLsbD 3, v.getLsbD 4, v.getLsbD 5, v.getLsbD 6, v.getLsbD 7]

/-- The byte whose bit `k` is element `k` of the list (20_memory.md R43). -/
def packByte : List Bool → Byte
  | [] => 0
  | b :: bs => (if b then 1#8 else 0#8) ||| (packByte bs <<< 1)

/-- The 56 bits of a frame in wire order: byte 0 first, each byte least significant bit first (30_encoding.md R63). -/
def frameBitList (f : Frame) : List Bool :=
  byteBits f[0] ++ byteBits f[1] ++ byteBits f[2] ++ byteBits f[3] ++ byteBits f[4] ++ byteBits f[5] ++ byteBits f[6]

/-- Byte `i` of a list of bits in wire order. -/
def packAt (bs : List Bool) (i : Nat) : Byte := packByte ((bs.drop (8 * i)).take 8)

/-- The frame whose wire order is the given list of 56 bits (20_memory.md R42, R43). -/
def packFrame (bs : List Bool) : Frame :=
  #v[packAt bs 0, packAt bs 1, packAt bs 2, packAt bs 3, packAt bs 4, packAt bs 5, packAt bs 6]

/-- The bit one pulse carries while a frame is received, if it carries one (30_encoding.md R61, rows 3 to 5). -/
def pulseBit (d : Nat) : Option Bool :=
  match classify .receiving d with
  | .bit0 => some false
  | .bit1 => some true
  | .startMarker => none
  | .ignored => none
  | .violation => none

/-- The bits of a list of durations, none if one of them carries no bit. -/
def pulseBits : List Nat → Option (List Bool)
  | [] => some []
  | d :: ds =>
    match pulseBit d, pulseBits ds with
    | some b, some bs => some (b :: bs)
    | some _, none => none
    | none, _ => none

/-- The WIRE format read back: the frame that the durations of 57 low pulses transmit, none if they are no well-formed
transmission (30_encoding.md R63). -/
def decodeWire : List Nat → Option Frame
  | [] => none
  | d :: ds =>
    if isStart d && decide (ds.length = Config.frameBits) then (pulseBits ds).map packFrame else none

/-! ### The FRAME format (30_encoding.md R66, R67; 43_frame_interpreter.md R123 to R128) -/

/-- `rawX = 256 * f[0] + f[1]`, unsigned (30_encoding.md R66). -/
def rawX (f : Frame) : Nat := 256 * f[0].toNat + f[1].toNat

/-- `rawY = 256 * f[2] + f[3]`, unsigned (30_encoding.md R66). -/
def rawY (f : Frame) : Nat := 256 * f[2].toNat + f[3].toNat

/-- Raw count to working value, exact (30_encoding.md R67). -/
def scaled (raw : Nat) : Rat := (raw : Rat) * Config.scale

/-- The X-branch cubic (43_frame_interpreter.md R126). -/
def tx (raw : Nat) : Rat :=
  Config.xa3 * scaled raw ^ 3 + Config.xa2 * scaled raw ^ 2 + Config.xa1 * scaled raw + Config.xa0

/-- The Y-branch cubic (43_frame_interpreter.md R127). -/
def ty (raw : Nat) : Rat :=
  Config.ya3 * scaled raw ^ 3 + Config.ya2 * scaled raw ^ 2 + Config.ya1 * scaled raw + Config.ya0

/-- The branch guard: the Y-branch is used iff `rawX > 836` or `rawY > 221` (43_frame_interpreter.md R125). -/
def usesY (f : Frame) : Bool := decide (Config.xThresh < rawX f) || decide (Config.yThresh < rawY f)

/-- The Celsius result of TEMP (43_frame_interpreter.md R124, before the unit). -/
def tempCelsius (f : Frame) : Rat := if usesY f then ty (rawY f) else tx (rawX f)

/-- The unit conversion, applied after the branch (43_frame_interpreter.md R128). -/
def inUnit (u : TempUnit) (c : Rat) : Rat :=
  match u with
  | .celsius => c
  | .fahrenheit => Config.fMul * c + Config.fAdd

/-- The result of TEMP (43_frame_interpreter.md R124). -/
def temperature (u : TempUnit) (f : Frame) : Rat := inUnit u (tempCelsius f)

/-- `r` is a result that a finite-precision realisation of TEMP with the error bound `TEMP_EPS` may return for `f` in the
unit `u`: `|r - TEMP(f)| <= TEMP_EPS` (43_frame_interpreter.md R130, 00_scope.md R5). The bound is on the value in the
unit delivered; the branch is `usesY` of the integers, exact. -/
abbrev TempRealises (p : Params) (u : TempUnit) (f : Frame) (r : Rat) : Prop := |r - temperature u f| ≤ p.tempEps

/-- `TC_e12` of the X-branch (43_frame_interpreter.md R129). -/
def txE12 (raw : Nat) : Int :=
  -278330 * (raw : Int) ^ 3 + 491944000 * (raw : Int) ^ 2 - 451444000000 * (raw : Int) + 310668000000000

/-- `TC_e12` of the Y-branch (43_frame_interpreter.md R129). -/
def tyE12 (raw : Nat) : Int :=
  -224200 * (raw : Int) ^ 3 + 385900000 * (raw : Int) ^ 2 - 327100000000 * (raw : Int) + 171000000000000

/-- The Celsius result times 10^12 (43_frame_interpreter.md R129). -/
def tempE12 (f : Frame) : Int := if usesY f then tyE12 (rawY f) else txE12 (rawX f)

/-- The result of TEMP times 10^12 in a unit; the Fahrenheit form is `9 * (TC_e12 / 5) + 32 * 10^12`
(43_frame_interpreter.md R129). -/
def temperatureE12 (u : TempUnit) (f : Frame) : Int :=
  match u with
  | .celsius => tempE12 f
  | .fahrenheit => 9 * (tempE12 f / 5) + 32000000000000

end Sys2Proof.Machine
end

