-- ==== Sys2Proof/Syntax.lean ====
section
/-! DEFINITION. The operations of the block, one constructor per row of spec/opcode_table.json (30_encoding.md R68,
R71: "A model represents an operation as a constructor of an inductive type, not as bits"). -/

namespace Sys2Proof

/-- The rows of the operation table. `now` is a timestamp, `d` a low-pulse duration in µs, `f` seven bytes, `ps` the 57
low pulses of one transmission. -/
inductive Instr
  /-- RESET (70_reset_and_hazards.md R170). -/
  | reset
  /-- BEGIN (40_edge_capture.md R80). -/
  | begin
  /-- SETCFG (10_state.md R26). -/
  | setcfg (unit : TempUnit) (debug : Bool)
  /-- EDGE_FALL (40_edge_capture.md R81). -/
  | edgeFall (now : Nat)
  /-- EDGE_RISE.SPURIOUS, the ignored case of a rising edge (40_edge_capture.md R82). -/
  | edgeRiseSpurious (now : Nat)
  /-- EDGE_RISE (40_edge_capture.md R82, R83). -/
  | edgeRise (now : Nat)
  /-- P_START (41_decoder_fsm.md R92). -/
  | pStart (d : Nat)
  /-- P_IDLE_IGNORE (41_decoder_fsm.md R93). -/
  | pIdleIgnore (d : Nat)
  /-- P_BIT0 (41_decoder_fsm.md R94). -/
  | pBit0 (d : Nat)
  /-- P_BIT1 (41_decoder_fsm.md R95). -/
  | pBit1 (d : Nat)
  /-- P_ABORT (41_decoder_fsm.md R101). -/
  | pAbort (d : Nat)
  /-- AVAIL (42_consumer_ops.md R110). -/
  | avail
  /-- TAKE (42_consumer_ops.md R111). -/
  | take
  /-- VALIDATE (43_frame_interpreter.md R121). -/
  | validate (f : Frame)
  /-- TEMP (43_frame_interpreter.md R124). -/
  | temp (f : Frame)
  /-- TEMP.X, the X-branch of TEMP (43_frame_interpreter.md R125, R126). -/
  | tempX (f : Frame)
  /-- TEMP.Y, the Y-branch of TEMP (43_frame_interpreter.md R125, R127). -/
  | tempY (f : Frame)
  /-- FRAME, one transmission on the line (30_encoding.md R63). -/
  | frame (ps : List LowPulse)
deriving DecidableEq, Repr

end Sys2Proof
end

