-- ==== Sys2Proof/WellFormed.lean ====
section
/-! DEFINITION. Which operands an operation admits (`Instr.wf`) and which control state selects it (`Instr.selected`):
the argument column and the "selected by" column of 30_encoding.md R68. -/

namespace Sys2Proof

/-- A transmission's timestamps are in range and its durations are those of one frame (30_encoding.md R63). -/
def frameOk (tsMod : Nat) (ps : List LowPulse) : Bool :=
  ps.all (fun p => decide (p.fall < tsMod)) && (Machine.decodeWire (ps.map LowPulse.dur)).isSome

/-- The operands are those the operation table admits (30_encoding.md R68, R61; 40_edge_capture.md R84; 41_decoder_fsm.md
R90; 43_frame_interpreter.md R125). Bytes have their width by type. -/
def Instr.wf (tsMod : Nat) : Instr → Bool
  | .reset => true
  | .begin => true
  | .setcfg _ _ => true
  | .edgeFall now => decide (now < tsMod)
  | .edgeRiseSpurious now => decide (now < tsMod)
  | .edgeRise now => decide (now < tsMod)
  | .pStart d => decide (d < tsMod) && decide (Machine.classify .idle d = .startMarker)
  | .pIdleIgnore d => decide (d < tsMod) && decide (Machine.classify .idle d = .ignored)
  | .pBit0 d => decide (d < tsMod) && decide (Machine.classify .receiving d = .bit0)
  | .pBit1 d => decide (d < tsMod) && decide (Machine.classify .receiving d = .bit1)
  | .pAbort d => decide (d < tsMod) && decide (Machine.classify .receiving d = .violation)
  | .avail => true
  | .take => true
  | .validate _ => true
  | .temp _ => true
  | .tempX f => !Machine.usesY f
  | .tempY f => Machine.usesY f
  | .frame ps => frameOk tsMod ps

/-- What the selection of a row reads: the modulus and three control bits (30_encoding.md R68, column "selected by"). -/
structure Select where
  tsMod : Nat
  st    : DecoderState
  en    : Bool
  pend  : Bool
deriving DecidableEq, Repr

/-- The control state selects the row (30_encoding.md R68; the conditions on operands are `Instr.wf`). -/
def Instr.selected (c : Select) : Instr → Bool
  | .reset => true
  | .begin => true
  | .setcfg _ _ => true
  | .edgeFall _ => true
  | .edgeRiseSpurious _ => !(c.en && c.pend)
  | .edgeRise _ => c.en && c.pend
  | .pStart _ => decide (c.st = .idle)
  | .pIdleIgnore _ => decide (c.st = .idle)
  | .pBit0 _ => decide (c.st = .receiving)
  | .pBit1 _ => decide (c.st = .receiving)
  | .pAbort _ => decide (c.st = .receiving)
  | .avail => true
  | .take => true
  | .validate _ => true
  | .temp _ => true
  | .tempX _ => true
  | .tempY _ => true
  | .frame _ => true

end Sys2Proof
end

