-- ==== Sys2Proof/Decode.lean ====
section
/-! DEFINITION. The decoder and its encoder. Three layers, each with the rule it follows:
the row a stimulus selects (30_encoding.md R61, R68; 43_frame_interpreter.md R125), with its inverse `encode`;
the trace notation, the only written form the spec gives operations (30_encoding.md R72, R73), with its inverse
`render`; and the host's word interface over that notation. -/

namespace Sys2Proof

/-! ### Row selection (30_encoding.md R60: the PULSE, FRAME and EVENT formats; WIRE through `Event.frame`) -/

/-- Why a stimulus or a line is rejected. Every rejection is safe: the machine stops where the outside broke the
input format. -/
inductive DecodeError
  /-- A timestamp outside `[0, TS_MOD)` (40_edge_capture.md R84; log entry 9). -/
  | timestampOutOfRange (now : Nat)
  /-- A duration outside `[0, TS_MOD)` (30_encoding.md R60; log entry 9). -/
  | durationOutOfRange (d : Nat)
  /-- The pulses are not one well-formed transmission (30_encoding.md R63; log entry 11). -/
  | notOneFrame
  /-- A line with no operation on it (30_encoding.md R72). -/
  | emptyLine
  /-- A line that begins with no operation's name (30_encoding.md R72, R73). -/
  | unknownOperation
  /-- A line whose operands are not those of its operation (30_encoding.md R72, R73). -/
  | badOperands
deriving DecidableEq, Repr

/-- What is presented for decoding: an event from outside, the duration a measured rising edge yields
(40_edge_capture.md R83), or the frame whose branch TEMP selects (43_frame_interpreter.md R125). -/
inductive Stimulus
  | event (e : Event)
  | pulse (d : Nat)
  | reading (f : Frame)
deriving DecidableEq, Repr

/-- The pulse operation a duration selects (30_encoding.md R61; 41_decoder_fsm.md R90). -/
def decodePulse (st : DecoderState) (d : Nat) : Instr :=
  match Machine.classify st d with
  | .startMarker => .pStart d
  | .ignored => .pIdleIgnore d
  | .bit0 => .pBit0 d
  | .bit1 => .pBit1 d
  | .violation => .pAbort d

/-- The branch of TEMP a frame selects (43_frame_interpreter.md R125). -/
def decodeBranch (f : Frame) : Instr := if Machine.usesY f then .tempY f else .tempX f

/-- The row of the operation table a stimulus selects, or the reason it selects none (30_encoding.md R68). -/
def decode (c : Select) : Stimulus → Except DecodeError Instr
  | .event .reset => .ok .reset
  | .event .begin => .ok .begin
  | .event (.setcfg u d) => .ok (.setcfg u d)
  | .event (.fall now) => if now < c.tsMod then .ok (.edgeFall now) else .error (.timestampOutOfRange now)
  | .event (.rise now) =>
    if now < c.tsMod then
      if c.en && c.pend then .ok (.edgeRise now) else .ok (.edgeRiseSpurious now)
    else .error (.timestampOutOfRange now)
  | .event .avail => .ok .avail
  | .event .take => .ok .take
  | .event (.validate f) => .ok (.validate f)
  | .event (.temp f) => .ok (.temp f)
  | .event (.frame ps) => if frameOk c.tsMod ps then .ok (.frame ps) else .error .notOneFrame
  | .pulse d => if d < c.tsMod then .ok (decodePulse c.st d) else .error (.durationOutOfRange d)
  | .reading f => .ok (decodeBranch f)

/-- The stimulus that selects a row: the encoder over the formats of 30_encoding.md R60. -/
def encode : Instr → Stimulus
  | .reset => .event .reset
  | .begin => .event .begin
  | .setcfg u d => .event (.setcfg u d)
  | .edgeFall now => .event (.fall now)
  | .edgeRiseSpurious now => .event (.rise now)
  | .edgeRise now => .event (.rise now)
  | .pStart d => .pulse d
  | .pIdleIgnore d => .pulse d
  | .pBit0 d => .pulse d
  | .pBit1 d => .pulse d
  | .pAbort d => .pulse d
  | .avail => .event .avail
  | .take => .event .take
  | .validate f => .event (.validate f)
  | .temp f => .event (.temp f)
  | .tempX f => .reading f
  | .tempY f => .reading f
  | .frame ps => .event (.frame ps)

/-- The operation an event names, before the control state selects a case of it (30_encoding.md R68, first column). -/
def Event.operation : Event → Instr
  | .reset => .reset
  | .begin => .begin
  | .setcfg u d => .setcfg u d
  | .fall now => .edgeFall now
  | .rise now => .edgeRise now
  | .avail => .avail
  | .take => .take
  | .validate f => .validate f
  | .temp f => .temp f
  | .frame ps => .frame ps

/-- Who issues a row (60_exceptions.md R151; spec/opcode_table.json, `issued_by`). The rows that are a part or a case of
another operation are `within`; a transmission and the edges come from the line. -/
def Instr.issuer : Instr → Issuer
  | .reset => .environment
  | .begin => .consumerContext
  | .setcfg _ _ => .consumerContext
  | .edgeFall _ => .edgeContext
  | .edgeRiseSpurious _ => .edgeContext
  | .edgeRise _ => .edgeContext
  | .pStart _ => .within
  | .pIdleIgnore _ => .within
  | .pBit0 _ => .within
  | .pBit1 _ => .within
  | .pAbort _ => .within
  | .avail => .consumerContext
  | .take => .consumerContext
  | .validate _ => .consumerContext
  | .temp _ => .consumerContext
  | .tempX _ => .within
  | .tempY _ => .within
  | .frame _ => .edgeContext

/-! ### Pseudo-operations on the line (30_encoding.md R73) -/

namespace Trace

/-- The nominal duration of a start marker, `START = LOW 8000`. -/
def nominalStart : Nat := 8000
/-- The nominal duration of a bit pulse, `B0 = LOW 600`, `B1 = LOW 1500`. -/
def nominalBit (b : Bool) : Nat := if b then 1500 else 600
/-- The high time after a nominal pulse. -/
def nominalGap : Nat := 500

/-- The cursor after `LOW d`. -/
def afterLow (tsMod t d : Nat) : Nat := (t + d + nominalGap) % tsMod

/-- `LOW d` for each duration of a list, from cursor `t`: the pulses and the cursor after them. -/
def lows (tsMod : Nat) : Nat → List Nat → List LowPulse × Nat
  | t, [] => ([], t)
  | t, d :: ds => (⟨t, d⟩ :: (lows tsMod (afterLow tsMod t d) ds).1, (lows tsMod (afterLow tsMod t d) ds).2)

/-- The two edges of each pulse, in line order: `F T`, then `R ((T + d) mod TS_MOD)`. -/
def edges (tsMod : Nat) : List LowPulse → List Event
  | [] => []
  | p :: ps => .fall p.fall :: .rise (Machine.riseAt tsMod p) :: edges tsMod ps

/-- `BYTE v`: eight nominal bit pulses, least significant bit first. -/
def byteDurations (v : Byte) : List Nat := (Machine.byteBits v).map nominalBit

/-- `FRAME b0 .. b6`: a nominal start marker and 56 nominal bit pulses. -/
def frameDurations (f : Frame) : List Nat := nominalStart :: (Machine.frameBitList f).map nominalBit

/-- The pulses of `FRAME b0 .. b6` from cursor `t`. -/
def frame (tsMod t : Nat) (f : Frame) : List LowPulse := (lows tsMod t (frameDurations f)).1

/-! ### The notation as text (30_encoding.md R72) -/

/-- Blank space between the words of a line. -/
def isBlank (c : Char) : Bool := c == ' ' || c == '\t' || c == '\r'

/-- The text of a line: up to its end (a zero byte or a line feed) or to the `;` that starts a comment. -/
def lineText : List Byte → List Char
  | [] => []
  | b :: bs => if b == 0 || b == 10 || b == 59 then [] else Char.ofNat b.toNat :: lineText bs

/-- The words of a text, `word` being the one begun. -/
def wordsFrom (word : List Char) : List Char → List (List Char)
  | [] => if word.isEmpty then [] else [word]
  | c :: cs =>
    if isBlank c then
      if word.isEmpty then wordsFrom [] cs else word :: wordsFrom [] cs
    else wordsFrom (word ++ [c]) cs

/-- The words of a line, without the expected result after `->`. -/
def lineWords (line : List Byte) : List (List Char) :=
  (wordsFrom [] (lineText line)).takeWhile (fun w => w != ['-', '>'])

/-- The value of a hexadecimal digit. -/
def hexValue (c : Char) : Option Nat :=
  if '0' ≤ c ∧ c ≤ '9' then some (c.toNat - 48)
  else if 'A' ≤ c ∧ c ≤ 'F' then some (c.toNat - 55)
  else if 'a' ≤ c ∧ c ≤ 'f' then some (c.toNat - 87)
  else none

/-- The value of a decimal digit. -/
def decimalValue (c : Char) : Option Nat := if '0' ≤ c ∧ c ≤ '9' then some (c.toNat - 48) else none

/-- A decimal number continued from `acc`. -/
def decimalFrom (acc : Nat) : List Char → Option Nat
  | [] => some acc
  | c :: cs =>
    match decimalValue c with
    | some v => decimalFrom (10 * acc + v) cs
    | none => none

/-- A decimal number: one digit or more. -/
def readNat : List Char → Option Nat
  | [] => none
  | c :: cs => decimalFrom 0 (c :: cs)

/-- A byte: exactly two hexadecimal digits. -/
def readByte : List Char → Option Byte
  | [h, l] =>
    match hexValue h, hexValue l with
    | some a, some b => some (BitVec.ofNat 8 (16 * a + b))
    | _, _ => none
  | _ => none

/-- Seven bytes, `b0` first. -/
def readFrame : List (List Char) → Option Frame
  | [w0, w1, w2, w3, w4, w5, w6] =>
    match readByte w0, readByte w1, readByte w2, readByte w3, readByte w4, readByte w5, readByte w6 with
    | some b0, some b1, some b2, some b3, some b4, some b5, some b6 => some #v[b0, b1, b2, b3, b4, b5, b6]
    | _, _, _, _, _, _, _ => none
  | _ => none

/-- Six bytes and the checksum that FRAMECK appends (30_encoding.md R73). -/
def readFrameCk : List (List Char) → Option Frame
  | [w0, w1, w2, w3, w4, w5] =>
    match readByte w0, readByte w1, readByte w2, readByte w3, readByte w4, readByte w5 with
    | some b0, some b1, some b2, some b3, some b4, some b5 =>
      some #v[b0, b1, b2, b3, b4, b5, b0 + b1 + b2 + b3 + b4 + b5]
    | _, _, _, _, _, _ => none
  | _ => none

/-- The unit letter of SETCFG. -/
def readUnit : List Char → Option TempUnit
  | ['C'] => some .celsius
  | ['F'] => some .fahrenheit
  | _ => none

/-- The debug bit of SETCFG. -/
def readBit : List Char → Option Bool
  | ['0'] => some false
  | ['1'] => some true
  | _ => none

/-- The names of the operations of R72 and of the pseudo-operations of R73. -/
inductive Keyword
  | reset | begin | setcfg | fall | rise | avail | take | validate | temp
  | at | low | start | b0 | b1 | byte | frame | frameck
deriving DecidableEq, Repr

/-- How each name is spelled. -/
def Keyword.spelling : Keyword → List Char
  | .reset => ['R', 'E', 'S', 'E', 'T']
  | .begin => ['B', 'E', 'G', 'I', 'N']
  | .setcfg => ['S', 'E', 'T', 'C', 'F', 'G']
  | .fall => ['F']
  | .rise => ['R']
  | .avail => ['A', 'V', 'A', 'I', 'L']
  | .take => ['T', 'A', 'K', 'E']
  | .validate => ['V', 'A', 'L', 'I', 'D', 'A', 'T', 'E']
  | .temp => ['T', 'E', 'M', 'P']
  | .at => ['A', 'T']
  | .low => ['L', 'O', 'W']
  | .start => ['S', 'T', 'A', 'R', 'T']
  | .b0 => ['B', '0']
  | .b1 => ['B', '1']
  | .byte => ['B', 'Y', 'T', 'E']
  | .frame => ['F', 'R', 'A', 'M', 'E']
  | .frameck => ['F', 'R', 'A', 'M', 'E', 'C', 'K']

/-- Every name. -/
def Keyword.all : List Keyword :=
  [.reset, .begin, .setcfg, .fall, .rise, .avail, .take, .validate, .temp, .at, .low, .start, .b0, .b1, .byte, .frame,
    .frameck]

/-- The name a word spells. -/
def readKeyword (w : List Char) : Option Keyword := Keyword.all.find? (fun k => k.spelling == w)

/-- The operation of a line of R72, and FRAME and FRAMECK as one transmission from cursor `t` (R73). -/
def readOperation (tsMod t : Nat) (k : Keyword) (args : List (List Char)) : Option Event :=
  match k, args with
  | .reset, [] => some .reset
  | .begin, [] => some .begin
  | .setcfg, [u, d] =>
    match readUnit u, readBit d with
    | some u', some d' => some (.setcfg u' d')
    | _, _ => none
  | .fall, [n] => (readNat n).map .fall
  | .rise, [n] => (readNat n).map .rise
  | .avail, [] => some .avail
  | .take, [] => some .take
  | .validate, ws => (readFrame ws).map .validate
  | .temp, ws => (readFrame ws).map .temp
  | .frame, ws => (readFrame ws).map (fun f => .frame (frame tsMod t f))
  | .frameck, ws => (readFrameCk ws).map (fun f => .frame (frame tsMod t f))
  | _, _ => none

/-- The durations a pseudo-operation on the line spells (R73). -/
def readLows (k : Keyword) (args : List (List Char)) : Option (List Nat) :=
  match k, args with
  | .low, [n] => (readNat n).map (fun d => [d])
  | .start, [] => some [nominalStart]
  | .b0, [] => some [nominalBit false]
  | .b1, [] => some [nominalBit true]
  | .byte, [v] => (readByte v).map byteDurations
  | _, _ => none

/-- The one operation on a line of R72, by name (from cursor `t`, for FRAME and FRAMECK). -/
def readLine (tsMod t : Nat) (line : List Byte) : Except DecodeError Event :=
  match lineWords line with
  | [] => .error .emptyLine
  | w :: args =>
    match readKeyword w with
    | none => .error .unknownOperation
    | some k =>
      match readOperation tsMod t k args with
      | some e => .ok e
      | none => .error .badOperands

/-- The cursor after a FRAME or FRAMECK line (R73). -/
def cursorAfter (tsMod t : Nat) : Event → Nat
  | .frame ps => ps.foldl (fun _ p => afterLow tsMod p.fall p.dur) t
  | .reset | .begin | .setcfg _ _ | .fall _ | .rise _ | .avail | .take | .validate _ | .temp _ => t

/-- The events a line spells and the cursor after it: an operation of R72, or a pseudo-operation of R73, which expands
to `F` and `R` lines. -/
def expandLine (tsMod t : Nat) (line : List Byte) : Except DecodeError (List Event × Nat) :=
  match lineWords line with
  | [] => .ok ([], t)
  | w :: args =>
    match readKeyword w with
    | none => .error .unknownOperation
    | some .at =>
      match args with
      | [n] =>
        match readNat n with
        | some t' => if t' < tsMod then .ok ([], t') else .error (.timestampOutOfRange t')
        | none => .error .badOperands
      | _ => .error .badOperands
    | some k =>
      match readOperation tsMod t k args, readLows k args with
      | some e, _ => .ok ([e], cursorAfter tsMod t e)
      | none, some ds => .ok (edges tsMod (lows tsMod t ds).1, (lows tsMod t ds).2)
      | none, none => .error .badOperands

/-- The events of a trace, line by line, from cursor `t` (30_encoding.md R72: "one operation per line, performed in
order"). -/
def expand (tsMod : Nat) : Nat → List (List Byte) → Except DecodeError (List Event)
  | _, [] => .ok []
  | t, l :: ls =>
    match expandLine tsMod t l with
    | .error r => .error r
    | .ok (es, t') =>
      match expand tsMod t' ls with
      | .error r => .error r
      | .ok es' => .ok (es ++ es')

/-! ### The notation written -/

/-- One decimal digit. -/
def digitChar (n : Nat) : Char := Char.ofNat (48 + n)

/-- The decimal digits of `n`, most significant first, at most `fuel` of them. -/
def decimalDigits : Nat → Nat → List Char
  | 0, _ => []
  | fuel + 1, n => if n < 10 then [digitChar n] else decimalDigits fuel (n / 10) ++ [digitChar (n % 10)]

/-- A number in decimal. -/
def writeNat (n : Nat) : List Char := decimalDigits (n + 1) n

/-- One hexadecimal digit, upper case. -/
def hexChar (n : Nat) : Char := if n < 10 then Char.ofNat (48 + n) else Char.ofNat (55 + n)

/-- A byte as two hexadecimal digits. -/
def writeByte (b : Byte) : List Char := [hexChar (b.toNat / 16), hexChar (b.toNat % 16)]

/-- The seven bytes of a frame, `b0` first. -/
def writeFrame (f : Frame) : List (List Char) :=
  [writeByte f[0], writeByte f[1], writeByte f[2], writeByte f[3], writeByte f[4], writeByte f[5], writeByte f[6]]

/-- The words of an event's line; a transmission of free durations has no line of its own, its edges have
(30_encoding.md R72). -/
def eventWords : Event → Option (List (List Char))
  | .reset => some [Keyword.reset.spelling]
  | .begin => some [Keyword.begin.spelling]
  | .setcfg u d =>
    some [Keyword.setcfg.spelling, (match u with | .celsius => ['C'] | .fahrenheit => ['F']),
      (if d then ['1'] else ['0'])]
  | .fall now => some [Keyword.fall.spelling, writeNat now]
  | .rise now => some [Keyword.rise.spelling, writeNat now]
  | .avail => some [Keyword.avail.spelling]
  | .take => some [Keyword.take.spelling]
  | .validate f => some (Keyword.validate.spelling :: writeFrame f)
  | .temp f => some (Keyword.temp.spelling :: writeFrame f)
  | .frame _ => none

/-- Words with one space between them. -/
def joinWords : List (List Char) → List Char
  | [] => []
  | [w] => w
  | w :: ws => w ++ ' ' :: joinWords ws

/-- The bytes of a text. -/
def textBytes (cs : List Char) : List Byte := cs.map (fun c => BitVec.ofNat 8 c.toNat)

/-- The line of an event (30_encoding.md R72). -/
def render (e : Event) : Option (List Byte) := (eventWords e).map (fun ws => textBytes (joinWords ws))

/-- The line of `FRAME b0 .. b6` (30_encoding.md R73). -/
def renderFrame (f : Frame) : List Byte := textBytes (joinWords (Keyword.frame.spelling :: writeFrame f))

end Trace

/-! ### The host's word interface -/

/-- The bytes of a word as the opcode table numbers its bits: byte `i` is bits `8*i+7 .. 8*i`, the first at the lowest
address. -/
def wordBytes (nbits w : Nat) : List Byte := (List.range ((nbits + 7) / 8)).map (fun i => BitVec.ofNat 8 (w / 256 ^ i))

/-- The operation the decoder reads from a word: its bytes taken as one line of the trace notation, with the spec's
default modulus and the cursor at 0. The spec gives the operations no other byte form (30_encoding.md R71; log
entry 12). -/
def decodeTableWord (nbits w : Nat) : Option Instr :=
  match Trace.readLine Config.tsModDefault 0 (wordBytes nbits w) with
  | .ok e => if e.operation.wf Config.tsModDefault then some e.operation else none
  | .error _ => none

end Sys2Proof
end

