-- ==== Sys2Proof/Machine/State.lean ====
section
/-! DEFINITION. The machine's state as plain data: the block's twelve items (10_state.md R10), the parameters of one
machine, the environment's remaining events and the three output streams; the reasons a step can stop; the state
after reset. -/

namespace Sys2Proof.Machine

/-- "The complete state of the block is the following twelve items and nothing else" (10_state.md R10). -/
structure Block where
  /-- Decoder state (10_state.md R11). -/
  st    : DecoderState
  /-- "Pending low measurement" (10_state.md R13). -/
  pend  : Bool
  /-- Timestamp of the most recent falling edge, reduced modulo `TS_MOD` (10_state.md R14). -/
  t0    : Nat
  /-- Index of the frame byte being assembled, 0 to 6; 7 is never stored (10_state.md R15; log entry 15). -/
  bi    : Fin 7
  /-- Number of bits already placed in `acc`, 0 to 7; 8 is never stored (10_state.md R16; log entry 15). -/
  bc    : Fin 8
  /-- Byte accumulator, least significant bit first (10_state.md R17). -/
  acc   : Byte
  /-- Working buffer (10_state.md R19). -/
  W     : Frame
  /-- Completed-frame buffer (10_state.md R20). -/
  F     : Frame
  /-- Ready flag (10_state.md R22). -/
  rdy   : Bool
  /-- `CFG.EN`: edges are delivered (10_state.md R23). -/
  en    : Bool
  /-- `CFG.UNIT` (10_state.md R24). -/
  unit  : TempUnit
  /-- `CFG.DEBUG` (10_state.md R25). -/
  debug : Bool
deriving DecidableEq, Repr

/-- The machine: the block, its parameters, and the model's own fields, which are no state of the block (log entries 5
and 6): what the environment has still to issue, and what was delivered, noted and traced, oldest first. -/
structure State where
  /-- The parameters of 00_scope.md R5, constants of one machine. -/
  params  : Params
  /-- The block. -/
  block   : Block
  /-- MODEL: the rest of the trace of operations, first one first (30_encoding.md R72). -/
  input   : List Event
  /-- MODEL: what `return` delivered (00_scope.md section 5). -/
  results : List Result
  /-- MODEL: the error classes noted; `note` writes no state of the block (00_scope.md section 5). -/
  notes   : List ErrorClass
  /-- MODEL: the debug trace already emitted (60_exceptions.md R160, 10_state.md R29 (g)). -/
  trace   : List TraceRecord
deriving DecidableEq, Repr

/-- The block has no fault: "No operation of the block traps, faults, blocks or returns an error status"
(60_exceptions.md R140), "Nothing in the block is `fault`" (93_implementation_defined.md). So this type is empty. -/
inductive Fault
deriving DecidableEq, Repr

/-- Why the model has no next state. -/
inductive Refusal
  /-- Raised by an arm of `exec` that has no meaning yet; safe. No arm raises it. -/
  | notModelled (mnemonic : String)
  /-- Raised by the meaning of an internal row (EDGE_RISE.SPURIOUS, P_START, P_IDLE_IGNORE, P_BIT0, P_BIT1, P_ABORT,
  TEMP.X, TEMP.Y) asked for with an operand or in a control state that does not select it (30_encoding.md R68). `step`
  never raises it. Safe: the block performs the row nowhere else (log entry 8). -/
  | notSelected
  /-- Raised by `step` on an event that is not of the input format: a timestamp outside `[0, TS_MOD)`, a transmission
  that is not one frame. Safe: the line cannot present it (log entries 9 and 11). -/
  | undecodable (r : DecodeError)
deriving DecidableEq, Repr

/-- The block's state after RESET, by the parameters (10_state.md R30, 70_reset_and_hazards.md R170). -/
def Block.powerOn (p : Params) : Block where
  st    := .idle
  pend  := false
  t0    := p.t0Reset
  bi    := 0
  bc    := 0
  acc   := 0
  W     := p.wReset
  F     := p.fReset
  rdy   := false
  en    := false
  unit  := p.unitReset
  debug := p.debugReset

/-- The machine right after reset: the block as 10_state.md R30 says, nothing issued yet, nothing delivered yet. -/
def State.reset : State where
  params  := Params.default
  block   := Block.powerOn Params.default
  input   := []
  results := []
  notes   := []
  trace   := []

end Sys2Proof.Machine
end

