-- ==== Sys2Proof/Machine/Ops.lean ====
section
/-! DEFINITION. The shared operations: access to the two buffers, what one operation leaves behind (`Effect`) and how
the machine takes it over (`State.commit`), the steps ACCEPT, BYTE_DONE and FRAME_DONE, the five pulse operations and
their dispatch PULSE, and the two edges. All writes of one operation take effect together (00_scope.md section 5). -/

namespace Sys2Proof.Machine

/-! ### The buffers (20_memory.md R40, R46; 00_scope.md section 5, MemRead and MemWrite) -/

/-- Cell `i` of a buffer. -/
def memRead (B : Frame) (i : Fin 7) : Byte := B[i]

/-- The buffer with byte `v` in cell `i`, every other cell as before. -/
def memWrite (B : Frame) (i : Fin 7) (v : Byte) : Frame := B.set i v

/-! ### Effects -/

/-- What one operation leaves: the block after it, its result, the error class it notes, the records it emits. -/
structure Effect where
  block  : Block
  result : Option Result := none
  note   : Option ErrorClass := none
  emits  : List TraceRecord := []
deriving DecidableEq, Repr

/-- The machine after an operation: the block replaced, the result delivered, the note observed, the records appended
when `CFG.DEBUG = 1` (60_exceptions.md R140, R160). -/
def State.commit (s : State) (e : Effect) : State :=
  { s with
    block := e.block
    results := s.results ++ e.result.toList
    notes := s.notes ++ e.note.toList
    trace := s.trace ++ (bif s.block.debug then e.emits else []) }

/-- The control state row selection reads (30_encoding.md R68). -/
def State.select (s : State) : Select := ⟨s.params.tsMod, s.block.st, s.block.en, s.block.pend⟩

/-- The meaning of an internal row: performed where its operands and the control state select it, refused by name
elsewhere (30_encoding.md R68; log entry 8). -/
def whenSelected (i : Instr) (s : State) (e : Effect) : Host.Outcome State Fault Refusal :=
  if i.wf s.params.tsMod && i.selected s.select then .next (s.commit e) else .refused .notSelected

/-! ### Framing (41_decoder_fsm.md R96 to R99) -/

/-- The partial frame zeroed (10_state.md R18). -/
def Block.clearPartial (b : Block) : Block := { b with bi := 0, bc := 0, acc := 0 }

/-- FRAME_DONE: publish W in F when the slot is free, drop the frame otherwise, and return to IDLE (41_decoder_fsm.md
R98, R99). -/
def frameDone (b : Block) : Effect :=
  if b.rdy then { block := { b with st := .idle, bi := 0 }, note := some .overrun }
  else { block := { b with F := b.W, rdy := true, st := .idle, bi := 0 }, emits := [.frameComplete] }

/-- BYTE_DONE: store the finished byte in the working buffer; the seventh completes the frame (41_decoder_fsm.md R97). -/
def byteDone (v : Byte) (b : Block) : Effect :=
  if h : b.bi.val + 1 < 7 then
    { block := { b with W := memWrite b.W b.bi v, acc := 0, bc := 0, bi := ⟨b.bi.val + 1, h⟩ } }
  else frameDone { b with W := memWrite b.W b.bi v, acc := 0, bc := 0 }

/-- The accumulator with bit `x` OR-ed in at position `bc` (41_decoder_fsm.md R96). -/
def shiftIn (acc : Byte) (bc : Fin 8) (x : Bool) : Byte := acc ||| ((if x then 1#8 else 0#8) <<< bc.val)

/-- ACCEPT: shift one bit in; the eighth completes the byte (41_decoder_fsm.md R96). -/
def accept (x : Bool) (b : Block) : Effect :=
  if h : b.bc.val + 1 < 8 then { block := { b with acc := shiftIn b.acc b.bc x, bc := ⟨b.bc.val + 1, h⟩ } }
  else byteDone (shiftIn b.acc b.bc x) b

/-! ### The pulse operations (41_decoder_fsm.md R90 to R95, R101) -/

/-- P_START: zero the partial frame, enter RECEIVING (41_decoder_fsm.md R92). -/
def startEffect (d : Nat) (b : Block) : Effect :=
  { block := { b.clearPartial with st := .receiving }, emits := [.start d] }

/-- P_IDLE_IGNORE: no state change (41_decoder_fsm.md R93). -/
def ignoreEffect (b : Block) : Effect := { block := b }

/-- P_BIT0 and P_BIT1: ACCEPT, and the trace record of the bit (41_decoder_fsm.md R94, R95). The record stands before
the one a completed frame emits, as vector V-R5 lists them (log entry 7). -/
def bitEffect (x : Bool) (d : Nat) (b : Block) : Effect :=
  { accept x b with emits := .bit d x :: (accept x b).emits }

/-- P_ABORT: back to IDLE, the partial frame zeroed, BadPulse noted (41_decoder_fsm.md R101). -/
def abortEffect (d : Nat) (b : Block) : Effect :=
  { block := { b.clearPartial with st := .idle }, note := some (.badPulse d) }

/-- PULSE: classify one duration and perform exactly one pulse operation (41_decoder_fsm.md R90). -/
def pulse (d : Nat) (b : Block) : Effect :=
  match classify b.st d with
  | .startMarker => startEffect d b
  | .ignored => ignoreEffect b
  | .bit0 => bitEffect false d b
  | .bit1 => bitEffect true d b
  | .violation => abortEffect d b

/-! ### The edges (40_edge_capture.md R81 to R85) -/

/-- A falling edge: record the timestamp and mark a measurement pending, when edges are delivered (40_edge_capture.md
R81, R85). -/
def fallEffect (now : Nat) (b : Block) : Effect :=
  { block := if b.en then { b with t0 := now, pend := true } else b }

/-- A rising edge that finds nothing to measure: nothing changes; SpuriousEdge is noted when edges are delivered
(40_edge_capture.md R82). -/
def spuriousEffect (b : Block) : Effect :=
  { block := b, note := if b.en then some .spuriousEdge else none }

/-- A rising edge that ends a low pulse: measure it, clear `pend`, classify it (40_edge_capture.md R83). -/
def measuredEffect (tsMod now : Nat) (b : Block) : Effect :=
  pulse (lowDur tsMod b.t0 now) { b with pend := false }

/-- A rising edge (40_edge_capture.md R82, R83). -/
def riseEffect (tsMod now : Nat) (b : Block) : Effect :=
  if b.en && b.pend then measuredEffect tsMod now b else spuriousEffect b

end Sys2Proof.Machine
end

