-- ==== Sys2Proof/Machine/Consumer.lean ====
section
/-! DEFINITION. The meanings of the consumer operations AVAIL and TAKE (42_consumer_ops.md R110 to R114). -/

namespace Sys2Proof.Machine

/-- AVAIL: `return rdy`, no state written (42_consumer_ops.md R110). -/
def execAvail (s : State) : Host.Outcome State Fault Refusal :=
  .next (s.commit { block := s.block, result := some (.bit s.block.rdy) })

/-- TAKE: return all of F and clear `rdy` in one step, whether or not `rdy` was set (42_consumer_ops.md R111 to R113). -/
def execTake (s : State) : Host.Outcome State Fault Refusal :=
  .next (s.commit { block := { s.block with rdy := false }, result := some (.bytes s.block.F) })

end Sys2Proof.Machine
end

