-- ==== Sys2Proof/Machine/Control.lean ====
section
/-! DEFINITION. The meanings of the control operations: RESET (70_reset_and_hazards.md R170), BEGIN (40_edge_capture.md
R80), SETCFG (10_state.md R26). -/

namespace Sys2Proof.Machine

/-- RESET: the power-on state of the block, from every state (70_reset_and_hazards.md R170). -/
def execReset (s : State) : Host.Outcome State Fault Refusal :=
  .next (s.commit { block := Block.powerOn s.params })

/-- BEGIN: `CFG.EN <- 1`, nothing else (40_edge_capture.md R80). -/
def execBegin (s : State) : Host.Outcome State Fault Refusal :=
  .next (s.commit { block := { s.block with en := true } })

/-- SETCFG: `CFG.UNIT <- unit; CFG.DEBUG <- debug` (10_state.md R26). -/
def execSetcfg (unit : TempUnit) (debug : Bool) (s : State) : Host.Outcome State Fault Refusal :=
  .next (s.commit { block := { s.block with unit := unit, debug := debug } })

end Sys2Proof.Machine
end

