-- ==== Sys2Proof/Machine/EdgeCapture.lean ====
section
/-! DEFINITION. The meanings of the edge operations (40_edge_capture.md R81 to R85) and of a whole transmission on the
line (30_encoding.md R63). -/

namespace Sys2Proof.Machine

/-- EDGE_FALL (40_edge_capture.md R81). -/
def execEdgeFall (now : Nat) (s : State) : Host.Outcome State Fault Refusal :=
  .next (s.commit (fallEffect now s.block))

/-- EDGE_RISE.SPURIOUS, the case `CFG.EN = 0` or `pend = 0` of a rising edge (40_edge_capture.md R82). -/
def execEdgeRiseSpurious (now : Nat) (s : State) : Host.Outcome State Fault Refusal :=
  whenSelected (.edgeRiseSpurious now) s (spuriousEffect s.block)

/-- EDGE_RISE, both of its cases (40_edge_capture.md R82, R83; log entry 10). -/
def execEdgeRise (now : Nat) (s : State) : Host.Outcome State Fault Refusal :=
  .next (s.commit (riseEffect s.params.tsMod now s.block))

/-- One low pulse on the line: its falling edge, then its rising edge (30_encoding.md R73, `LOW d`). -/
def lowPulse (s : State) (p : LowPulse) : State :=
  let s1 := s.commit (fallEffect p.fall s.block)
  s1.commit (riseEffect s1.params.tsMod (riseAt s1.params.tsMod p) s1.block)

/-- FRAME: the low pulses of one transmission, one after the other, no other operation between (30_encoding.md R63,
R73; log entry 11). -/
def execFrame (ps : List LowPulse) (s : State) : Host.Outcome State Fault Refusal :=
  .next (ps.foldl lowPulse s)

end Sys2Proof.Machine
end

