-- ==== Sys2Proof/Machine/Interpreter.lean ====
section
/-! DEFINITION. The meanings of the frame interpreter's operations (43_frame_interpreter.md R120 to R132): pure
functions of seven bytes and, for TEMP, of `CFG.UNIT`; they write no state. -/

namespace Sys2Proof.Machine

/-- VALIDATE: the checksum test; a result of 0 is the class ChecksumMismatch (43_frame_interpreter.md R121,
60_exceptions.md R143). -/
def execValidate (f : Frame) (s : State) : Host.Outcome State Fault Refusal :=
  .next (s.commit
    { block := s.block
      result := some (.bit (checksumValid f))
      note := if checksumValid f then none else some .checksumMismatch })

/-- TEMP: the exact rational temperature in the unit configured now (43_frame_interpreter.md R124, R128, R130). -/
def execTemp (f : Frame) (s : State) : Host.Outcome State Fault Refusal :=
  .next (s.commit { block := s.block, result := some (.temperature (temperature s.block.unit f)) })

/-- TEMP.X: the X-branch of TEMP, its Celsius value (43_frame_interpreter.md R125, R126). The block performs the row only
within TEMP, whose unit conversion comes after it (R128). DESIGN CHOICE: performed on its own it delivers that value,
unconverted whatever `CFG.UNIT` (log entry 29). -/
def execTempX (f : Frame) (s : State) : Host.Outcome State Fault Refusal :=
  whenSelected (.tempX f) s { block := s.block, result := some (.temperature (tx (rawX f))) }

/-- TEMP.Y: the Y-branch of TEMP, its Celsius value (43_frame_interpreter.md R125, R127). DESIGN CHOICE: performed on its
own it delivers that value, unconverted whatever `CFG.UNIT` (log entry 29). -/
def execTempY (f : Frame) (s : State) : Host.Outcome State Fault Refusal :=
  whenSelected (.tempY f) s { block := s.block, result := some (.temperature (ty (rawY f))) }

end Sys2Proof.Machine
end

