-- ==== Sys2Proof/Machine/Pulse.lean ====
section
/-! DEFINITION. The meanings of the five pulse operations (41_decoder_fsm.md R92 to R95, R101). The block performs them
only as the second half of a measured rising edge (41_decoder_fsm.md R90); each is performed where its row's operand
and decoder state select it. -/

namespace Sys2Proof.Machine

/-- P_START (41_decoder_fsm.md R92). -/
def execPStart (d : Nat) (s : State) : Host.Outcome State Fault Refusal :=
  whenSelected (.pStart d) s (startEffect d s.block)

/-- P_IDLE_IGNORE (41_decoder_fsm.md R93). -/
def execPIdleIgnore (d : Nat) (s : State) : Host.Outcome State Fault Refusal :=
  whenSelected (.pIdleIgnore d) s (ignoreEffect s.block)

/-- P_BIT0 (41_decoder_fsm.md R94). -/
def execPBit0 (d : Nat) (s : State) : Host.Outcome State Fault Refusal :=
  whenSelected (.pBit0 d) s (bitEffect false d s.block)

/-- P_BIT1 (41_decoder_fsm.md R95). -/
def execPBit1 (d : Nat) (s : State) : Host.Outcome State Fault Refusal :=
  whenSelected (.pBit1 d) s (bitEffect true d s.block)

/-- P_ABORT (41_decoder_fsm.md R101). -/
def execPAbort (d : Nat) (s : State) : Host.Outcome State Fault Refusal :=
  whenSelected (.pAbort d) s (abortEffect d s.block)

end Sys2Proof.Machine
end

