-- ==== Sys2Proof/Machine/Dispatch.lean ====
section
/-! DEFINITION. The meaning of every row of the operation table, one arm per constructor. -/

namespace Sys2Proof.Machine

def exec (i : Instr) (s : State) : Host.Outcome State Fault Refusal :=
  match i with
  | .reset => Sys2Proof.Machine.execReset s
  | .begin => Sys2Proof.Machine.execBegin s
  | .setcfg unit debug => Sys2Proof.Machine.execSetcfg unit debug s
  | .edgeFall now => Sys2Proof.Machine.execEdgeFall now s
  | .edgeRiseSpurious now => Sys2Proof.Machine.execEdgeRiseSpurious now s
  | .edgeRise now => Sys2Proof.Machine.execEdgeRise now s
  | .pStart d => Sys2Proof.Machine.execPStart d s
  | .pIdleIgnore d => Sys2Proof.Machine.execPIdleIgnore d s
  | .pBit0 d => Sys2Proof.Machine.execPBit0 d s
  | .pBit1 d => Sys2Proof.Machine.execPBit1 d s
  | .pAbort d => Sys2Proof.Machine.execPAbort d s
  | .avail => Sys2Proof.Machine.execAvail s
  | .take => Sys2Proof.Machine.execTake s
  | .validate f => Sys2Proof.Machine.execValidate f s
  | .temp f => Sys2Proof.Machine.execTemp f s
  | .tempX f => Sys2Proof.Machine.execTempX f s
  | .tempY f => Sys2Proof.Machine.execTempY f s
  | .frame ps => Sys2Proof.Machine.execFrame ps s

end Sys2Proof.Machine
end

