-- ==== Sys2Proof/Machine/Fetch.lean ====
section
/-! DEFINITION. Where the next operation comes from: the first event of `input`. The block fetches nothing
(10_state.md R12); the environment chooses the order of operations (00_scope.md R6; log entry 5). -/

namespace Sys2Proof.Machine

/-- The machine with the first event taken off its input. -/
def State.consumed (s : State) : State := { s with input := s.input.tail }

/-- The machine with one more event to come, before all others. -/
def State.placed (e : Event) (s : State) : State := { s with input := e :: s.input }

/-- The row the next event selects in the present control state; none when nothing is to come (30_encoding.md R68). -/
def State.nextRow (s : State) : Option (Except DecodeError Instr) :=
  s.input.head?.map (fun e => decode s.select (.event e))

/-- The operation a word of the host's interface names is put first in the input; a word that names none changes
nothing (log entry 12). -/
def State.placeWord (s : State) (nbits w : Nat) : State :=
  match Trace.readLine s.params.tsMod 0 (wordBytes nbits w) with
  | .ok e => State.placed e s
  | .error _ => s

end Sys2Proof.Machine
end

