-- ==== Sys2Proof/Machine/Step.lean ====
section
/-! DEFINITION. One step of the machine: the next event's row is selected and performed as one atomic operation
(00_scope.md R6). -/

namespace Sys2Proof.Machine

/-- One operation. With nothing to come the block waits and nothing changes (41_decoder_fsm.md R103; log entry 21); an
event outside the input format is refused by name (log entry 9). -/
def step (s : State) : Host.Outcome State Fault Refusal :=
  match s.nextRow with
  | none => .next s
  | some (.ok i) => exec i s.consumed
  | some (.error r) => .refused (.undecodable r)

/-- The host's way to place one operation where `step` takes the next one from. -/
def State.withFetchWord (s : State) (nbits w : Nat) : State := s.placeWord nbits w

end Sys2Proof.Machine
end

