-- ==== Sys2Proof/Safety.lean ====
section
/-! DEFINITION. The terms the claims are stated in: the legal states of the block, what a transmission is, what has
been received so far, and what an operation answers. -/

namespace Sys2Proof

open Machine

/-- The legal values of 10_state.md R10, R17 and R18: `t0` is a timestamp, IDLE holds no partial frame, the accumulator
has no bit at position `bc` or above. (`bi <= 6` and `bc <= 7` hold by type.) -/
def Machine.Block.Legal (p : Params) (b : Block) : Prop :=
  b.t0 < p.tsMod ∧ (b.st = .idle → b.bi = 0 ∧ b.bc = 0 ∧ b.acc = 0) ∧ b.acc.toNat < 2 ^ b.bc.val

/-- The invariant of every reachable state: legal parameters and a legal block. -/
def Machine.State.Legal (s : State) : Prop := s.params.Ok ∧ s.block.Legal s.params

/-- The position of the next bit in the frame, `8*bi + bc` of 56 (10_state.md R12). -/
def Machine.Block.position (b : Block) : Nat := 8 * b.bi.val + b.bc.val

/-- A pulse of `d` µs carries the bit `x` (30_encoding.md R61, R63). -/
def Carries (x : Bool) (d : Nat) : Prop := if x then 1200 ≤ d ∧ d ≤ 2000 else d < 900

/-- The row of the bit `x`. -/
def bitRow (x : Bool) (d : Nat) : Instr := if x then .pBit1 d else .pBit0 d

/-- The durations are those of a well-formed transmission of `f`: a start marker, then for `n` = 0 to 55 a pulse that
carries bit `n mod 8` of byte `n div 8` (30_encoding.md R63). -/
def Transmits (f : Frame) (ds : List Nat) : Prop :=
  ∃ d bits, ds = d :: bits ∧ 7000 ≤ d ∧ d ≤ 10000 ∧ bits.length = 56 ∧
    ∀ n : Nat, ∀ hn : n < 7 * 8, ∀ hb : n < bits.length,
      Carries ((f[n / 8]'(Nat.div_lt_of_lt_mul (by omega))).getLsbD (n % 8)) bits[n]

/-- The low pulses are a well-formed transmission of `f` with timestamps in range (30_encoding.md R63). -/
def TransmitsOnLine (tsMod : Nat) (f : Frame) (ps : List LowPulse) : Prop :=
  Transmits f (ps.map LowPulse.dur) ∧ ∀ p ∈ ps, p.fall < tsMod

/-- The timestamp of the last falling edge of a list of pulses, `t` if there is none. -/
def lastFall : Nat → List LowPulse → Nat
  | t, [] => t
  | _, p :: ps => lastFall p.fall ps

/-- The block is RECEIVING and has accepted exactly the bits `bs` since its start marker: the finished bytes stand in W,
the rest in the accumulator (10_state.md R17, R19; 20_memory.md R42, R43). -/
def Machine.Block.HasReceived (b : Block) (bs : List Bool) : Prop :=
  b.st = .receiving ∧ bs.length = b.position ∧
    (∀ i : Fin 7, i < b.bi → memRead b.W i = packAt bs i.val) ∧ b.acc = packAt bs b.bi.val

/-- The operation answers a next state from every state and delivers the result `r`, writing no state of the block
(30_encoding.md R68, column "result"). -/
def Answers (i : Instr) (r : Result) : Prop :=
  ∀ s : State, ∃ t, exec i s = .next t ∧ t.results = s.results ++ [r] ∧ t.block = s.block

/-- The two blocks hold the same reception: everything the edge context owns (10_state.md R27). -/
def Machine.Block.SameReception (b b' : Block) : Prop :=
  b'.st = b.st ∧ b'.pend = b.pend ∧ b'.t0 = b.t0 ∧ b'.bi = b.bi ∧ b'.bc = b.bc ∧ b'.acc = b.acc ∧ b'.W = b.W

/-- The frame with one bit of one byte flipped. -/
def flipBit (f : Frame) (i : Fin 7) (k : Fin 8) : Frame := f.set i (f[i] ^^^ (1#8 <<< k.val))

/-- The frame with two of its bytes exchanged. -/
def swapBytes (f : Frame) (i j : Fin 7) : Frame := (f.set i f[j]).set j f[i]

end Sys2Proof
end

