-- ==== Sys2Proof/Certificates/Slice0/Obligations.lean ====
section
/-! DEFINITION. The statements about the model, in the order of the spec's files. Each docstring names the rule or the
section it formalises; where a clause rests on a choice the spec marks as its own, the statement is a derived one and
says so. -/

open Sys2Proof Sys2Proof.Machine

/-! ### Reset, BEGIN, SETCFG -/

/-- RESET gives the same power-on block from every state and touches no stream (70_reset_and_hazards.md section 1). The
values other than `st` and `rdy` are the spec's own choice (92_eei_decisions.md D5 to D8). -/
def Obligations.ResetGivesPowerOnBlock : Prop :=
  ∀ s : State, exec .reset s = .next { s with
    block :=
      { st := .idle, pend := false, t0 := s.params.t0Reset, bi := 0, bc := 0, acc := 0, W := s.params.wReset,
        F := s.params.fReset, rdy := false, en := false, unit := s.params.unitReset,
        debug := s.params.debugReset } }

/-- The machine after reset: IDLE, no frame ready, no measurement pending, no partial frame, edges not delivered, Celsius,
the debug mode off, F, W and `t0` at the machine's parameters, the modulus 2^32, no event to come (10_state.md section
10). Only `st` and `rdy` are the source's; `pend`, `bi`, `bc`, `acc` and `CFG.EN` at 0 are the spec's own choice (log
entry 4; 92_eei_decisions.md D5, D8), as are the defaults of the parameters (log entries 1 to 3; 00_scope.md R5). -/
def Obligations.MachineAfterReset : Prop :=
  State.reset.block.st = .idle ∧ State.reset.block.rdy = false ∧ State.reset.block.pend = false ∧
    State.reset.block.bi = 0 ∧ State.reset.block.bc = 0 ∧ State.reset.block.acc = 0 ∧
    State.reset.block.en = false ∧ State.reset.block.unit = .celsius ∧ State.reset.block.debug = false ∧
    State.reset.block.F = State.reset.params.fReset ∧ State.reset.block.W = State.reset.params.wReset ∧
    State.reset.block.t0 = State.reset.params.t0Reset ∧ State.reset.params.tsMod = 2 ^ 32 ∧
    State.reset.input = []

/-- BEGIN sets `CFG.EN` and nothing else, whatever is being received, and a second BEGIN changes nothing
(40_edge_capture.md section 1; the spec's own choice D8, D24). -/
def Obligations.BeginSetsOnlyEnable : Prop :=
  ∀ s : State, ∃ t, exec .begin s = .next t ∧ t = { s with block := { s.block with en := true } } ∧
    exec .begin t = .next t

/-- SETCFG writes the unit and the debug bit and nothing else (10_state.md section 7; the spec's own choice D21). -/
def Obligations.SetcfgWritesUnitAndDebug : Prop :=
  ∀ (u : TempUnit) (d : Bool) (s : State),
    exec (.setcfg u d) s = .next { s with block := { s.block with unit := u, debug := d } }

/-! ### Edge capture -/

/-- A falling edge records its timestamp and marks a measurement pending when edges are delivered, and changes nothing
when they are not; no decoding state, no flag of the consumer, no stream is touched (40_edge_capture.md section 2; the
case `CFG.EN = 0` is the spec's own choice D20). -/
def Obligations.FallingEdgeRecordsTimestamp : Prop :=
  ∀ (now : Nat) (s : State),
    (s.block.en = true → exec (.edgeFall now) s = .next { s with block := { s.block with t0 := now, pend := true } }) ∧
    (s.block.en = false → exec (.edgeFall now) s = .next s)

/-- Two falling edges in a row: the second overwrites `t0`, `pend` stays 1, nothing else changes, and the next rising
edge is measured from the later one (40_edge_capture.md R85). That the measured edge clears `pend` and that the
duration is reduced modulo `TS_MOD` are the spec's own choice (log entry 20; D1, D2). -/
def Obligations.SecondFallingEdgeReplacesFirst : Prop :=
  ∀ (n1 n2 d : Nat) (s : State), s.block.en = true → s.block.pend = true → d < s.params.tsMod →
    (n1 + d) % s.params.tsMod = n2 % s.params.tsMod →
    exec (.edgeFall n1) s = .next { s with block := { s.block with t0 := n1 } } ∧
    exec (.edgeRise n2) { s with block := { s.block with t0 := n1 } } =
      .next ({ s with block := { s.block with t0 := n1 } }.commit
        (pulse d { s.block with t0 := n1, pend := false }))

/-- A rising edge with nothing pending, or with edges not delivered, leaves every register as it was, whichever of the
two rows names it; SpuriousEdge is noted only when edges are delivered (40_edge_capture.md R82). The case `CFG.EN = 0`
is the spec's own choice (log entry 22; D20), and that EDGE_RISE covers the ignored case is the model's reading (log
entry 10). -/
def Obligations.SpuriousRisingEdgeIgnored : Prop :=
  ∀ (i : Instr) (now : Nat) (s : State), now < s.params.tsMod → i = .edgeRise now ∨ i = .edgeRiseSpurious now →
    s.block.en = false ∨ s.block.pend = false →
    ∃ t, exec i s = .next t ∧ t.block = s.block ∧ t.params = s.params ∧ t.input = s.input ∧ t.results = s.results ∧
      (s.block.en = true → t.notes = s.notes ++ [.spuriousEdge]) ∧ (s.block.en = false → t.notes = s.notes) ∧
      (s.block.debug = false → t.trace = s.trace)

/-- A measured rising edge clears `pend` and performs exactly the pulse operation its duration selects, the duration
being the one residue below `TS_MOD` that leads from `t0` to `now` (40_edge_capture.md section 3, R83; the reduction
and the clearing are the spec's own choice D1, D2). -/
def Obligations.MeasuredRiseRunsSelectedPulse : Prop :=
  ∀ (now d : Nat) (s : State), s.block.en = true → s.block.pend = true → d < s.params.tsMod →
    (s.block.t0 + d) % s.params.tsMod = now % s.params.tsMod →
    exec (.edgeRise now) s =
      exec (decodePulse s.block.st d) { s with block := { s.block with pend := false } }

/-- A measured rising edge answers a next state from every state in which edges are delivered and a measurement is
pending; its block is the one the classified pulse leaves with `pend` cleared, so `t0` and the control bits are kept;
the parameters, the input and the results are kept (40_edge_capture.md section 3). The clearing of `pend` and the
reduction of the duration are the spec's own choice (log entry 20; D1, D2). -/
def Obligations.MeasuredRiseCompletes : Prop :=
  ∀ (now : Nat) (s : State), s.block.en = true → s.block.pend = true →
    ∃ t, exec (.edgeRise now) s = .next t ∧
      t.block = (pulse (lowDur s.params.tsMod s.block.t0 now) { s.block with pend := false }).block ∧
      t.block.pend = false ∧ t.block.t0 = s.block.t0 ∧
      t.block.en = true ∧ t.block.unit = s.block.unit ∧ t.block.debug = s.block.debug ∧
      t.params = s.params ∧ t.input = s.input ∧ t.results = s.results

/-- A low time of `L` true microseconds from true time `T` is measured as `L mod TS_MOD`, across the wrap as well, and
aliases beyond it (40_edge_capture.md section 4, R84, R86). The measurement modulo `TS_MOD` and the cleared `pend` are
the spec's own choice (log entry 20; D1, D2). -/
def Obligations.LowTimeMeasuredAsResidue : Prop :=
  ∀ (T L : Nat) (s : State), 0 < s.params.tsMod → s.block.en = true →
    ∃ t, exec (.edgeFall (T % s.params.tsMod)) s = .next t ∧
      exec (.edgeRise ((T + L) % s.params.tsMod)) t =
        exec (decodePulse s.block.st (L % s.params.tsMod)) { t with block := { t.block with pend := false } }

/-! ### Pulse classification and framing -/

/-- The duration table: for each decoder state every duration falls in exactly one row (30_encoding.md R61). -/
def Obligations.DurationTable : Prop :=
  ∀ (c : Select) (d : Nat), d < c.tsMod →
    (c.st = .idle →
      (7000 ≤ d ∧ d ≤ 10000 → decode c (.pulse d) = .ok (.pStart d)) ∧
      (d < 7000 ∨ 10000 < d → decode c (.pulse d) = .ok (.pIdleIgnore d))) ∧
    (c.st = .receiving →
      (d < 900 → decode c (.pulse d) = .ok (.pBit0 d)) ∧
      (1200 ≤ d ∧ d ≤ 2000 → decode c (.pulse d) = .ok (.pBit1 d)) ∧
      ((900 ≤ d ∧ d ≤ 1199) ∨ 2001 ≤ d → decode c (.pulse d) = .ok (.pAbort d)))

/-- A start marker in IDLE zeroes the partial frame and enters RECEIVING, whether or not the slot is free, and changes no
other register (41_decoder_fsm.md R92). The exact trace with the debug mode on is the spec's own choice (log entry 27;
D7): one START record. -/
def Obligations.StartMarkerEntersReceiving : Prop :=
  ∀ (d : Nat) (s : State), s.block.st = .idle → 7000 ≤ d → d ≤ 10000 → d < s.params.tsMod →
    exec (.pStart d) s = .next { s with
      block := { s.block with st := .receiving, bi := 0, bc := 0, acc := 0 }
      trace := if s.block.debug then s.trace ++ [.start d] else s.trace }

/-- Any other pulse in IDLE changes no register and no parameter, delivers nothing and is no error (41_decoder_fsm.md
R93). -/
def Obligations.IdlePulseIgnored : Prop :=
  ∀ (d : Nat) (s : State), s.block.st = .idle → d < 7000 ∨ 10000 < d → d < s.params.tsMod →
    ∃ t, exec (.pIdleIgnore d) s = .next t ∧ t.block = s.block ∧ t.params = s.params ∧ t.input = s.input ∧
      t.results = s.results ∧ t.notes = s.notes ∧ (s.block.debug = false → t.trace = s.trace)

/-- A bit pulse that does not complete a byte places its bit at position `bc` and advances `bc`; the buffers, the flags
and `bi` are unchanged (41_decoder_fsm.md R94, R95 and the first branch of R96). The exact trace with the debug mode on
is the spec's own choice (log entry 27; D7): one BIT record. -/
def Obligations.BitPulseShiftsBitIn : Prop :=
  ∀ (x : Bool) (d : Nat) (s : State), s.block.st = .receiving → Carries x d → d < s.params.tsMod →
    ∀ h : s.block.bc.val + 1 < 8,
      exec (bitRow x d) s = .next { s with
        block := { s.block with
          acc := s.block.acc ||| BitVec.ofNat 8 ((if x then 1 else 0) * 2 ^ s.block.bc.val)
          bc := ⟨s.block.bc.val + 1, h⟩ }
        trace := if s.block.debug then s.trace ++ [.bit d x] else s.trace }

/-- The eighth bit of a byte that is not the seventh: the finished byte, whose top bit is the bit just received, is
stored in `W[bi]` and nowhere else, `acc` and `bc` are zeroed, `bi` advances, and F, `rdy` and `st` are unchanged
(41_decoder_fsm.md R96, R97; the store into W is the spec's own choice D3). -/
def Obligations.EighthBitStoresByte : Prop :=
  ∀ (x : Bool) (d : Nat) (s : State), s.block.st = .receiving → Carries x d → d < s.params.tsMod →
    s.block.bc = 7 → s.block.bi.val < 6 →
    ∃ t, exec (bitRow x d) s = .next t ∧
      memRead t.block.W s.block.bi = s.block.acc ||| (if x then 0x80#8 else 0x00#8) ∧
      (∀ i, i ≠ s.block.bi → memRead t.block.W i = memRead s.block.W i) ∧
      t.block = { s.block with W := t.block.W, acc := 0, bc := 0, bi := s.block.bi + 1 } ∧
      t.params = s.params ∧ t.input = s.input ∧ t.results = s.results ∧ t.notes = s.notes

/-- The 56th bit with the slot free: all seven bytes of W, the last store included, stand in F, `rdy` is set, and the
decoder is IDLE with no partial frame (41_decoder_fsm.md R97, R98; `bi <- 0` and the two buffers are the spec's own
choice D3, D4). -/
def Obligations.LastBitPublishesFrame : Prop :=
  ∀ (x : Bool) (d : Nat) (s : State), s.block.st = .receiving → Carries x d → d < s.params.tsMod →
    s.block.bc = 7 → s.block.bi = 6 → s.block.rdy = false →
    ∃ t, exec (bitRow x d) s = .next t ∧
      memRead t.block.W 6 = s.block.acc ||| (if x then 0x80#8 else 0x00#8) ∧
      (∀ i, i ≠ 6 → memRead t.block.W i = memRead s.block.W i) ∧
      t.block = { s.block with W := t.block.W, F := t.block.W, rdy := true, st := .idle, bi := 0, bc := 0, acc := 0 } ∧
      t.params = s.params ∧ t.input = s.input ∧ t.results = s.results ∧ t.notes = s.notes

/-- The 56th bit with the slot full: the last byte is stored in W, F and `rdy` are unchanged, the decoder goes to IDLE with
no partial frame, Overrun is noted (41_decoder_fsm.md R97, R98, R99; 60_exceptions.md R144). The store into W with F
kept (log entry 14; D3) and `bi <- 0` (log entry 15; D4) are the spec's own choice. -/
def Obligations.LastBitOverrunDropsFrame : Prop :=
  ∀ (x : Bool) (d : Nat) (s : State), s.block.st = .receiving → Carries x d → d < s.params.tsMod →
    s.block.bc = 7 → s.block.bi = 6 → s.block.rdy = true →
    ∃ t, exec (bitRow x d) s = .next t ∧
      memRead t.block.W 6 = s.block.acc ||| (if x then 0x80#8 else 0x00#8) ∧
      (∀ i, i ≠ 6 → memRead t.block.W i = memRead s.block.W i) ∧
      t.block = { s.block with W := t.block.W, st := .idle, bi := 0, bc := 0, acc := 0 } ∧
      t.params = s.params ∧ t.input = s.input ∧ t.results = s.results ∧ t.notes = s.notes ++ [.overrun]

/-- A protocol violation discards the partial frame and returns to IDLE; W, F and `rdy` keep their values, nothing is
delivered, BadPulse is noted (41_decoder_fsm.md R101). -/
def Obligations.AbortDiscardsPartialFrame : Prop :=
  ∀ (d : Nat) (s : State), s.block.st = .receiving → (900 ≤ d ∧ d ≤ 1199) ∨ 2001 ≤ d → d < s.params.tsMod →
    ∃ t, exec (.pAbort d) s = .next t ∧ t.block = { s.block with st := .idle, bi := 0, bc := 0, acc := 0 } ∧
      t.params = s.params ∧ t.input = s.input ∧ t.results = s.results ∧ t.notes = s.notes ++ [.badPulse d] ∧
      (s.block.debug = false → t.trace = s.trace)

/-- The dead zone: a low pulse of 900 to 1199 µs met while RECEIVING leads to IDLE and leaves `rdy` as it was
(41_decoder_fsm.md R105). -/
def Obligations.DeadZoneReturnsToIdle : Prop :=
  ∀ (now d : Nat) (s : State), s.block.en = true → s.block.pend = true → s.block.st = .receiving →
    900 ≤ d → d ≤ 1199 → d < s.params.tsMod → (s.block.t0 + d) % s.params.tsMod = now % s.params.tsMod →
    ∃ t, exec (.edgeRise now) s = .next t ∧ t.block.st = .idle ∧ t.block.rdy = s.block.rdy ∧
      t.block.F = s.block.F

/-- An internal row asked for with an operand or in a control state that does not select it is refused by name: the
model's choice (log entry 8), since the block performs it nowhere else (30_encoding.md R68, column "selected by"). -/
def Obligations.UnselectedRowRefused : Prop :=
  ∀ (d : Nat) (f : Frame) (s : State),
    (¬ (s.block.st = .idle ∧ 7000 ≤ d ∧ d ≤ 10000 ∧ d < s.params.tsMod) →
      exec (.pStart d) s = .refused .notSelected) ∧
    (¬ (s.block.st = .idle ∧ (d < 7000 ∨ 10000 < d) ∧ d < s.params.tsMod) →
      exec (.pIdleIgnore d) s = .refused .notSelected) ∧
    (¬ (s.block.st = .receiving ∧ d < 900 ∧ d < s.params.tsMod) → exec (.pBit0 d) s = .refused .notSelected) ∧
    (¬ (s.block.st = .receiving ∧ 1200 ≤ d ∧ d ≤ 2000 ∧ d < s.params.tsMod) →
      exec (.pBit1 d) s = .refused .notSelected) ∧
    (¬ (s.block.st = .receiving ∧ ((900 ≤ d ∧ d ≤ 1199) ∨ 2001 ≤ d) ∧ d < s.params.tsMod) →
      exec (.pAbort d) s = .refused .notSelected) ∧
    (¬ ((s.block.en = false ∨ s.block.pend = false) ∧ d < s.params.tsMod) →
      exec (.edgeRiseSpurious d) s = .refused .notSelected) ∧
    ((836 < rawX f ∨ 221 < rawY f) → exec (.tempX f) s = .refused .notSelected) ∧
    (¬ (836 < rawX f ∨ 221 < rawY f) → exec (.tempY f) s = .refused .notSelected)

/-- Reception is the wire order: a block that has received the bits `bs` has, after a pulse that carries `x`, received
`bs ++ [x]`; a start marker in IDLE leaves the empty list; and the 56th bit leaves in W the frame those 56 bits spell,
byte 0 first and least significant bit first (20_memory.md R42, R43; 41_decoder_fsm.md R92, R96 to R98). -/
def Obligations.ReceptionFollowsWireOrder : Prop :=
  (∀ (d : Nat) (b : Block), classify b.st d = .startMarker → (pulse d b).block.HasReceived []) ∧
  (∀ (x : Bool) (d : Nat) (bs : List Bool) (b : Block), b.HasReceived bs → Carries x d → bs.length < 55 →
    (pulse d b).block.HasReceived (bs ++ [x])) ∧
  (∀ (x : Bool) (d : Nat) (bs : List Bool) (b : Block), b.HasReceived bs → Carries x d → bs.length = 55 →
    (pulse d b).block.W = packFrame (bs ++ [x]) ∧ (pulse d b).block.st = .idle ∧
      (b.rdy = false → (pulse d b).block.F = packFrame (bs ++ [x]) ∧ (pulse d b).block.rdy = true) ∧
      (b.rdy = true → (pulse d b).block.F = b.F ∧ (pulse d b).block.rdy = true))

/-- `rdy` turns from 0 to 1, in an operation other than a whole FRAME, only where that operation accepts a bit at
position 55 of 56: a measured EDGE_RISE, P_BIT0 or P_BIT1; then F holds what W holds and the decoder is IDLE
(41_decoder_fsm.md section 6, R106; 10_state.md R21, R22). -/
def Obligations.ReadySetOnlyAtBit56 : Prop :=
  ∀ (i : Instr) (s t : State), exec i s = .next t → (∀ ps, i ≠ .frame ps) →
    s.block.rdy = false → t.block.rdy = true →
    s.block.st = .receiving ∧ s.block.position = 55 ∧ t.block.F = t.block.W ∧ t.block.st = .idle ∧
      ((∃ now x, i = .edgeRise now ∧ s.block.en = true ∧ s.block.pend = true ∧
          Carries x (lowDur s.params.tsMod s.block.t0 now)) ∨
        (∃ x d, i = bitRow x d ∧ Carries x d))

/-- An accepted bit moves the position by exactly one, or ends the frame from position 55 at position 0 of IDLE
(10_state.md section 2, R12). -/
def Obligations.AcceptedBitAdvancesPosition : Prop :=
  ∀ (x : Bool) (d : Nat) (s t : State), exec (bitRow x d) s = .next t →
    (s.block.position < 55 → t.block.st = .receiving ∧ t.block.position = s.block.position + 1) ∧
    (s.block.position = 55 → t.block.st = .idle ∧ t.block.position = 0)

/-- Delivery: from an enabled IDLE block with a free slot, a well-formed transmission of `f` ends with `f` in F and
`rdy` set; a TAKE after it returns `f`, and VALIDATE of `f` returns 1 iff byte 6 is the checksum (41_decoder_fsm.md
R104). Beyond R104 the block is pinned whole: `f` in W (log entry 14; D3), `pend` cleared (log entry 20; D2) and `bi`
zeroed (log entry 15; D4) are the spec's own choice, and the one-step FRAME is the model's (log entry 11). -/
def Obligations.TransmissionDelivered : Prop :=
  ∀ (f : Frame) (ps : List LowPulse) (s : State), TransmitsOnLine s.params.tsMod f ps → s.params.Ok →
    s.block.en = true → s.block.st = .idle → s.block.rdy = false →
    ∃ t, exec (.frame ps) s = .next t ∧
      t.block = { s.block with
        pend := false, t0 := lastFall s.block.t0 ps, bi := 0, bc := 0, acc := 0, W := f, F := f, rdy := true } ∧
      t.params = s.params ∧ t.input = s.input ∧ t.results = s.results ∧ t.notes = s.notes ∧
      (∃ u, exec .take t = .next u ∧ u.results = t.results ++ [.bytes f]) ∧
      (∃ v, exec (.validate f) t = .next v ∧
        v.results = t.results ++
          [.bit (decide (f[6].toNat =
            (f[0].toNat + f[1].toNat + f[2].toNat + f[3].toNat + f[4].toNat + f[5].toNat) % 256))])

/-- Overrun: a whole transmission met while a frame is unconsumed leaves that frame retrievable and is itself dropped;
its bytes stay in W (41_decoder_fsm.md R99). Beyond R99 the block is pinned whole: the two buffers (log entry 14; D3),
`pend` cleared (log entry 20; D2) and `bi` zeroed (log entry 15; D4) are the spec's own choice, and the one-step FRAME
is the model's (log entry 11). -/
def Obligations.SecondTransmissionDropped : Prop :=
  ∀ (f : Frame) (ps : List LowPulse) (s : State), TransmitsOnLine s.params.tsMod f ps → s.params.Ok →
    s.block.en = true → s.block.st = .idle → s.block.rdy = true →
    ∃ t, exec (.frame ps) s = .next t ∧
      t.block = { s.block with
        pend := false, t0 := lastFall s.block.t0 ps, bi := 0, bc := 0, acc := 0, W := f } ∧
      t.params = s.params ∧ t.input = s.input ∧ t.results = s.results ∧ t.notes = s.notes ++ [.overrun] ∧
      ∃ u, exec .take t = .next u ∧ u.results = t.results ++ [.bytes s.block.F]

/-- A transmission met while a stale reception is open is lost whole: its start marker aborts, its bits are ignored in
IDLE, the buffers and `rdy` keep their values (41_decoder_fsm.md section 5, R102; 70_reset_and_hazards.md R189). The
cleared `pend` is the spec's own choice (log entry 20; D2), and the one-step FRAME is the model's (log entry 11). -/
def Obligations.TransmissionAfterTruncatedOneLost : Prop :=
  ∀ (f : Frame) (ps : List LowPulse) (s : State), TransmitsOnLine s.params.tsMod f ps → s.params.Ok →
    s.block.en = true → s.block.st = .receiving →
    ∃ t d, exec (.frame ps) s = .next t ∧ ps.head?.map LowPulse.dur = some d ∧
      t.block = { s.block with
        st := .idle, pend := false, t0 := lastFall s.block.t0 ps, bi := 0, bc := 0, acc := 0 } ∧
      t.params = s.params ∧ t.input = s.input ∧ t.results = s.results ∧ t.notes = s.notes ++ [.badPulse d]

/-- With edges not delivered a transmission has no effect at all (40_edge_capture.md R81, R82; the spec's own choice
D20). -/
def Obligations.TransmissionIgnoredWhenDisabled : Prop :=
  ∀ (ps : List LowPulse) (s : State), s.block.en = false → exec (.frame ps) s = .next s

/-- High intervals carry no information: two sequences of low pulses with the same durations, whatever the gaps between
them, leave the same block but for `t0`, and the same streams (30_encoding.md R74). -/
def Obligations.HighIntervalsCarryNothing : Prop :=
  ∀ (ps qs : List LowPulse) (s : State), 0 < s.params.tsMod → ps.map LowPulse.dur = qs.map LowPulse.dur →
    ∃ t u, exec (.frame ps) s = .next t ∧ exec (.frame qs) s = .next u ∧
      { t with block := { t.block with t0 := 0 } } = { u with block := { u.block with t0 := 0 } }

/-- No time-out: with no event to come the machine stays as it is, however many steps pass, RECEIVING included
(41_decoder_fsm.md section 5, R103). The absent time-out is the spec's own choice (log entry 17; D13), and that a step
with no event changes nothing is the model's (log entry 21). -/
def Obligations.NoTimeOut : Prop :=
  ∀ (n : Nat) (s : State), s.input = [] → Host.Core.run core n s = .next s

/-! ### Consumer operations -/

/-- AVAIL returns `rdy` and writes nothing (42_consumer_ops.md R110). -/
def Obligations.AvailReturnsReady : Prop :=
  ∀ s : State, exec .avail s = .next { s with results := s.results ++ [.bit s.block.rdy] }

/-- TAKE returns the seven bytes of F and clears `rdy`; F and every decoder register keep their values
(42_consumer_ops.md R111). That it does the same with `rdy = 0` is the spec's own choice (R113; log entry 18; D11). -/
def Obligations.TakeReturnsFrameAndClearsReady : Prop :=
  ∀ s : State, exec .take s = .next { s with
    block := { s.block with rdy := false }, results := s.results ++ [.bytes s.block.F] }

/-- AVAIL called any number of times in a row delivers the same bit each time and changes nothing else; nothing but TAKE
(and RESET) turns its answer from 1 to 0; AVAIL straight after a TAKE delivers 0 (42_consumer_ops.md R114). -/
def Obligations.AvailIdempotentAndFalseAfterTake : Prop :=
  (∀ (n : Nat) (rest : List Event) (s : State),
    Host.Core.run core n { s with input := List.replicate n .avail ++ rest } =
      .next { s with input := rest, results := s.results ++ List.replicate n (.bit s.block.rdy) }) ∧
  (∀ (i : Instr) (s t : State), exec i s = .next t → i ≠ .take → i ≠ .reset → s.block.rdy = true →
    ∃ u, exec .avail t = .next u ∧ u.results = t.results ++ [.bit true]) ∧
  (∀ s : State, ∃ t u, exec .take s = .next t ∧ exec .avail t = .next u ∧ u.results = t.results ++ [.bit false])

/-- Once a frame is ready it stays ready and unchanged, whatever is performed, until a TAKE or a RESET (20_memory.md
section 4, R51 (a)). -/
def Obligations.ReadyFrameStableUntilTake : Prop :=
  ∀ (i : Instr) (s t : State), exec i s = .next t → i ≠ .take → i ≠ .reset → s.block.rdy = true →
    t.block.rdy = true ∧ t.block.F = s.block.F

/-- No torn frame: a well-formed operation other than RESET either leaves F alone or publishes all of W in it, from a
free slot (20_memory.md section 5, R54). -/
def Obligations.NoTornFrame : Prop :=
  ∀ (i : Instr) (s t : State), s.Legal → i.wf s.params.tsMod = true → i ≠ .reset → exec i s = .next t →
    t.block.F = s.block.F ∨ (s.block.rdy = false ∧ t.block.rdy = true ∧ t.block.F = t.block.W)

/-! ### The frame interpreter -/

/-- VALIDATE returns whether the mod-256 sum of bytes 0 to 5 equals byte 6 and writes no state of the block; a result of
0 is noted as ChecksumMismatch (43_frame_interpreter.md R121). -/
def Obligations.ValidateComparesSum : Prop :=
  ∀ (f : Frame) (s : State),
    let ok := decide ((f[0].toNat + f[1].toNat + f[2].toNat + f[3].toNat + f[4].toNat + f[5].toNat) % 256 = f[6].toNat)
    exec (.validate f) s = .next { s with
      results := s.results ++ [.bit ok]
      notes := if ok then s.notes else s.notes ++ [.checksumMismatch] }

/-- A payload with its own sum is valid, and flipping any one bit of a valid frame makes it invalid (43_frame_interpreter.md
R122 (a) to (c)). -/
def Obligations.ChecksumDetectsSingleBitErrors : Prop :=
  (∀ f : Frame, Answers (.validate (f.set 6 (f[0] + f[1] + f[2] + f[3] + f[4] + f[5]))) (.bit true)) ∧
  (∀ (f : Frame) (i : Fin 7) (k : Fin 8), Answers (.validate f) (.bit true) →
    Answers (.validate (flipBit f i k)) (.bit false))

/-- What the checksum misses: two payload bytes exchanged, and the same bit flipped up in one payload byte and down in
another, leave the result as it was (43_frame_interpreter.md R122 (d)). -/
def Obligations.ChecksumMissesCompensatingErrors : Prop :=
  (∀ (f : Frame) (i j : Fin 7) (r : Bool), i.val < 6 → j.val < 6 → Answers (.validate f) (.bit r) →
    Answers (.validate (swapBytes f i j)) (.bit r)) ∧
  (∀ (f : Frame) (i j : Fin 7) (k : Fin 8) (r : Bool), i.val < 6 → j.val < 6 → i ≠ j →
    f[i].getLsbD k = false → f[j].getLsbD k = true → Answers (.validate f) (.bit r) →
    Answers (.validate (flipBit (flipBit f i k) j k)) (.bit r))

/-- TEMP returns the value of the cubic the guard selects, in the unit configured when it runs, for every seven bytes, and
writes no state of the block (43_frame_interpreter.md R124, R125, R126, R127, R128). The exact rational result (log
entry 13; D9) and the unsigned fields (log entry 19; D12) are the spec's own choice. -/
def Obligations.TempReturnsSelectedCubic : Prop :=
  ∀ (f : Frame) (s : State),
    let rx : Nat := 256 * f[0].toNat + f[1].toNat
    let ry : Nat := 256 * f[2].toNat + f[3].toNat
    let x : Rat := rx / 1000
    let y : Rat := ry / 1000
    let c : Rat :=
      if rx > 836 ∨ ry > 221 then -224.2 * y ^ 3 + 385.9 * y ^ 2 - 327.1 * y + 171
      else -278.33 * x ^ 3 + 491.944 * x ^ 2 - 451.444 * x + 310.668
    exec (.temp f) s = .next { s with
      results := s.results ++ [.temperature (if s.block.unit = .fahrenheit then 1.8 * c + 32.0 else c)] }

/-- The two branch rows deliver their cubic in Celsius, each on its own side of the guard; the X-branch value is an integer
over 10^12 (43_frame_interpreter.md R126, R127). The exact value (log entry 13; D9, R130) and the unsigned fields (log
entry 19; D12) are the spec's own choice, and that a branch row performed on its own delivers its value unconverted is
the model's (log entry 29). -/
def Obligations.BranchRowsReturnCubics : Prop :=
  ∀ (f : Frame) (s : State),
    let rx : Nat := 256 * f[0].toNat + f[1].toNat
    let ry : Nat := 256 * f[2].toNat + f[3].toNat
    let x : Rat := rx / 1000
    let y : Rat := ry / 1000
    (rx ≤ 836 ∧ ry ≤ 221 →
      exec (.tempX f) s = .next { s with
        results := s.results ++ [.temperature (-278.33 * x ^ 3 + 491.944 * x ^ 2 - 451.444 * x + 310.668)] } ∧
      ∃ n : Int, -278.33 * x ^ 3 + 491.944 * x ^ 2 - 451.444 * x + 310.668 = (n : Rat) / 10 ^ 12) ∧
    (rx > 836 ∨ ry > 221 → exec (.tempY f) s = .next { s with
      results := s.results ++ [.temperature (-224.2 * y ^ 3 + 385.9 * y ^ 2 - 327.1 * y + 171)] })

/-- The Fahrenheit result is exactly `1.8 * Tc + 32.0` of the Celsius result for the same bytes, and the unit read is the
one in force when TEMP runs (43_frame_interpreter.md R128). -/
def Obligations.FahrenheitFromCelsius : Prop :=
  ∀ (f : Frame) (s : State), ∃ (c : Rat) (sc sf tc tf : State),
    exec (.setcfg .celsius s.block.debug) s = .next sc ∧ exec (.setcfg .fahrenheit s.block.debug) s = .next sf ∧
    exec (.temp f) sc = .next tc ∧ exec (.temp f) sf = .next tf ∧
    tc.results = s.results ++ [.temperature c] ∧ tf.results = s.results ++ [.temperature (1.8 * c + 32.0)]

/-- TEMP delivers the integer of R129 over 10^12, for every seven bytes and in the configured unit; a finite-precision
realisation may return exactly the values within `TEMP_EPS` of it, so the delivered one among them, and only that one
when `TEMP_EPS = 0` (43_frame_interpreter.md section 3, R129, R130). The exact result and the parameter `TEMP_EPS` are
the spec's own choice (log entry 13; D9), as are the unsigned fields (log entry 19; D12). -/
def Obligations.TemperatureIntegerForm : Prop :=
  ∀ (f : Frame) (s : State),
    let v : Rat := (temperatureE12 s.block.unit f : Rat) / 10 ^ 12
    exec (.temp f) s = .next { s with results := s.results ++ [.temperature v] } ∧
      (∀ r, TempRealises s.params s.block.unit f r ↔ v - s.params.tempEps ≤ r ∧ r ≤ v + s.params.tempEps) ∧
      (s.params.Ok → TempRealises s.params s.block.unit f v) ∧
      (∀ r, s.params.tempEps = 0 → TempRealises s.params s.block.unit f r → r = v)

/-- Range and shape: both cubics are strictly decreasing on their domains, their end points are those of the spec, and
the Y-branch is negative exactly from 1024 on (43_frame_interpreter.md section 3, R131). -/
def Obligations.CubicsDecreaseAndBound : Prop :=
  (∀ a b : Nat, a < b → b ≤ 836 → tx b < tx a) ∧ (∀ a b : Nat, a < b → b ≤ 65535 → ty b < ty a) ∧
  tx 0 = 310.668 ∧ tx 836 = 114.45667682752 ∧ ty 0 = 171 ∧ ty 65535 = -61467689.226877575 ∧
  ty 221 = 115.1386582638 ∧ ty 222 = 114.9495126384 ∧
  (∀ n : Nat, n ≤ 65535 → (ty n < 0 ↔ 1024 ≤ n))

/-- TEMP reads bytes 0 to 3 only: reserved bytes and checksum, right or wrong, have no influence
(43_frame_interpreter.md section 3, R123, R132). -/
def Obligations.TempReadsOnlyFirstFourBytes : Prop :=
  ∀ (f g : Frame) (s : State), f[0] = g[0] → f[1] = g[1] → f[2] = g[2] → f[3] = g[3] →
    ∃ t, exec (.temp f) s = .next t ∧ exec (.temp g) s = .next t

/-! ### Contexts, error classes, observation -/

/-- The consumer context's operations complete from every state and leave the reception, F, the input, the parameters and
the trace alone; only TAKE touches `rdy`, only BEGIN `CFG.EN`, only SETCFG the unit and the debug bit, only VALIDATE
notes anything (10_state.md section 8, R27; 20_memory.md R47). -/
def Obligations.ConsumerOperationsFrame : Prop :=
  ∀ (i : Instr) (s : State), i.issuer = .consumerContext → ∃ t, exec i s = .next t ∧
    s.block.SameReception t.block ∧ t.block.F = s.block.F ∧ t.params = s.params ∧ t.input = s.input ∧
    t.trace = s.trace ∧
    (i ≠ .take → t.block.rdy = s.block.rdy) ∧ (i = .take → t.block.rdy = false) ∧
    (i ≠ .begin → t.block.en = s.block.en) ∧
    ((∀ u d, i ≠ .setcfg u d) → t.block.unit = s.block.unit ∧ t.block.debug = s.block.debug) ∧
    ((∀ f, i ≠ .validate f) → t.notes = s.notes)

/-- The edge context's operations and their parts leave the control bits, the parameters, the input and the results
alone; they write F only together with setting `rdy` from 0, and never clear `rdy` (10_state.md section 8, R27). -/
def Obligations.EdgeOperationsFrame : Prop :=
  ∀ (i : Instr) (s t : State), i.issuer = .edgeContext ∨ (∃ d, i = decodePulse s.block.st d) →
    exec i s = .next t →
    t.block.en = s.block.en ∧ t.block.unit = s.block.unit ∧ t.block.debug = s.block.debug ∧
    t.params = s.params ∧ t.input = s.input ∧ t.results = s.results ∧
    (s.block.rdy = true → t.block.rdy = true) ∧
    (t.block.F = s.block.F ∨ (s.block.rdy = false ∧ t.block.rdy = true))

/-- VALIDATE and TEMP write no state of the block, and what they return depends on nothing of it but `CFG.UNIT`
(43_frame_interpreter.md section 1, R120; the argument form is the spec's own choice D23). -/
def Obligations.InterpreterIsPure : Prop :=
  ∀ (f : Frame) (s s' : State), s'.block.unit = s.block.unit → ∃ (v c : Result) (t t' u u' : State),
    exec (.validate f) s = .next t ∧ exec (.validate f) s' = .next t' ∧
    exec (.temp f) s = .next u ∧ exec (.temp f) s' = .next u' ∧
    t.block = s.block ∧ t'.block = s'.block ∧ u.block = s.block ∧ u'.block = s'.block ∧
    t.results = s.results ++ [v] ∧ t'.results = s'.results ++ [v] ∧
    u.results = s.results ++ [c] ∧ u'.results = s'.results ++ [c]

/-- Reception does not depend on the slot: two states that differ only in `rdy` and F have, after any edge operation or
pulse operation, the same reception (41_decoder_fsm.md section 4, R100). -/
def Obligations.ReceptionIgnoresReadyFlag : Prop :=
  ∀ (i : Instr) (s t : State) (r : Bool) (g : Frame),
    i.issuer = .edgeContext ∨ (∃ d, i = decodePulse s.block.st d) → exec i s = .next t →
    ∃ u, exec i { s with block := { s.block with rdy := r, F := g } } = .next u ∧ t.block.SameReception u.block

/-- The debug mode alters nothing: with `CFG.DEBUG` at either value every operation that completes gives the same
block but for that bit, the same results, the same notes (10_state.md R25). -/
def Obligations.DebugModeAltersNothing : Prop :=
  ∀ (i : Instr) (s t : State) (g : Bool), exec i s = .next t →
    ∃ u, exec i { s with block := { s.block with debug := g } } = .next u ∧
      { u.block with debug := t.block.debug } = t.block ∧ u.params = t.params ∧ u.input = t.input ∧
      u.results = t.results ∧ u.notes = t.notes ∧ (s.block.debug = false → t.trace = s.trace)

/-- The streams are never read back: what an operation does to the block does not depend on what was delivered, noted or
traced before (10_state.md R29 (e), (g); 60_exceptions.md R140). -/
def Obligations.StreamsNeverRead : Prop :=
  ∀ (i : Instr) (s t : State) (rs : List Result) (ns : List ErrorClass) (tr : List TraceRecord),
    exec i s = .next t →
    ∃ u, exec i { s with results := rs, notes := ns, trace := tr } = .next u ∧ u.block = t.block ∧
      u.params = t.params ∧ u.input = t.input ∧
      ∃ dr dn dt, t.results = s.results ++ dr ∧ u.results = rs ++ dr ∧ t.notes = s.notes ++ dn ∧ u.notes = ns ++ dn ∧
        t.trace = s.trace ++ dt ∧ u.trace = tr ++ dt

/-- At most one error class applies to one operation (a transmission is 114 of them), and each class only where the spec
names it: SpuriousEdge on an unmeasured rising edge with edges delivered, BadPulse on an abort, by a measured rising
edge or P_ABORT, of a duration in the violation band, Overrun on an accepted bit that completes a frame with the slot
full, ChecksumMismatch on VALIDATE (60_exceptions.md section 3, R147). -/
def Obligations.AtMostOneErrorClass : Prop :=
  ∀ (i : Instr) (s t : State), exec i s = .next t → (∀ ps, i ≠ .frame ps) →
    t.notes = s.notes ∨
    (∃ c, t.notes = s.notes ++ [c] ∧
      (c = .spuriousEdge → t.block = s.block ∧ s.block.en = true ∧ s.block.pend = false ∧
        ∃ now, i = .edgeRise now ∨ i = .edgeRiseSpurious now) ∧
      (∀ d, c = .badPulse d → s.block.st = .receiving ∧ t.block.st = .idle ∧ t.block.rdy = s.block.rdy ∧
        ((900 ≤ d ∧ d ≤ 1199) ∨ 2001 ≤ d) ∧
        (i = .pAbort d ∨ ∃ now, i = .edgeRise now ∧ s.block.en = true ∧ s.block.pend = true ∧
          d = lowDur s.params.tsMod s.block.t0 now)) ∧
      (c = .overrun → s.block.rdy = true ∧ s.block.position = 55 ∧ s.block.st = .receiving ∧ t.block.F = s.block.F ∧
        ((∃ now x, i = .edgeRise now ∧ s.block.en = true ∧ s.block.pend = true ∧
            Carries x (lowDur s.params.tsMod s.block.t0 now)) ∨
          (∃ x d, i = bitRow x d ∧ Carries x d))) ∧
      (c = .checksumMismatch → ∃ f, i = .validate f ∧ t.results = s.results ++ [.bit false]))

/-- Nothing the outside can present stops the machine: every event that decodes is performed, in every state
(60_exceptions.md R140). -/
def Obligations.EveryDecodedEventCompletes : Prop :=
  ∀ (e : Event) (rest : List Event) (s : State) (i : Instr), s.input = e :: rest →
    decode s.select (.event e) = .ok i → ∃ t, step s = .next t ∧ t.input = rest ∧ t.params = s.params

/-! ### Decoding, encoding, stepping -/

/-- Row selection and its inverse agree: a well-formed row that the control state selects is what its stimulus decodes
to, and whatever a stimulus decodes to is well-formed, selected, and has that stimulus (30_encoding.md R62, R68). -/
def Obligations.RowSelectionRoundTrip : Prop :=
  (∀ (c : Select) (i : Instr), i.wf c.tsMod = true → i.selected c = true → decode c (encode i) = .ok i) ∧
  (∀ (c : Select) (x : Stimulus) (i : Instr), decode c x = .ok i →
    i.wf c.tsMod = true ∧ i.selected c = true ∧ encode i = x)

/-- The trace notation round trip: the line written for an event is read back as that event, for every timestamp and
every byte, and a FRAME line is read as the nominal transmission of its bytes (30_encoding.md section 7, R72, R73; the
notation is the spec's own, D14). -/
def Obligations.TraceLineRoundTrip : Prop :=
  (∀ (m t : Nat) (e : Event) (l : List Byte), Trace.render e = some l → Trace.readLine m t l = .ok e) ∧
  (∀ (m t : Nat) (f : Frame), Trace.readLine m t (Trace.renderFrame f) = .ok (.frame (Trace.frame m t f)))

/-- The WIRE format: the durations of a transmission decode to `f` exactly when they are a well-formed transmission of
`f` (30_encoding.md R63). -/
def Obligations.WireFormatDecodes : Prop :=
  ∀ (f : Frame) (ds : List Nat), decodeWire ds = some f ↔ Transmits f ds

/-- The pseudo-operation FRAME is a well-formed transmission of its bytes and advances the cursor by
`8500 + 2000*n1 + 1100*(56 - n1)` µs (30_encoding.md section 7, R73). -/
def Obligations.NominalFrameTransmits : Prop :=
  ∀ (m t : Nat) (f : Frame), 10000 < m → t < m →
    TransmitsOnLine m f (Trace.frame m t f) ∧
    (Trace.lows m t (Trace.frameDurations f)).2 =
      (t + 8500 + 2000 * (frameBitList f).count true + 1100 * (56 - (frameBitList f).count true)) % m

/-- A transmission in one operation is its 114 edges one after the other (30_encoding.md R73). That FRAME is one operation
is the model's choice (log entry 11). -/
def Obligations.TransmissionIsItsEdges : Prop :=
  ∀ (ps : List LowPulse) (rest : List Event) (s : State), 0 < s.params.tsMod →
    (∀ p ∈ ps, p.fall < s.params.tsMod) →
    Host.Core.run core (2 * ps.length) { s with input := Trace.edges s.params.tsMod ps ++ rest } =
      exec (.frame ps) { s with input := rest }

/-- Words written out from the trace notation decode to what they spell: `F 1000`, `R 9000`, `AVAIL`, `TAKE`
(30_encoding.md section 7, R72). The operations have no binary encoding (R71): reading the host's words as lines of the
notation is the model's choice (log entry 12), and the notation is the spec's own (D14). -/
def Obligations.SampleWordsDecode : Prop :=
  decodeTableWord 48 0x303030312046 = some (.edgeFall 1000) ∧
  decodeTableWord 48 0x303030392052 = some (.edgeRise 9000) ∧
  decodeTableWord 40 0x4C49415641 = some .avail ∧
  decodeTableWord 32 0x454B4154 = some .take

/-- A step performs the row the next event selects, on the machine with that event taken off its input (00_scope.md R6;
30_encoding.md R68). That an event outside the input format is refused (log entries 9 and 11) and that with no event
nothing happens (log entry 21) are the model's choices. -/
def Obligations.StepRunsDecodedRow : Prop :=
  ∀ s : State, (s.input = [] → step s = .next s) ∧
    ∀ (e : Event) (rest : List Event), s.input = e :: rest →
      (∀ i, decode s.select (.event e) = .ok i → step s = exec i { s with input := rest }) ∧
      (∀ r, decode s.select (.event e) = .error r → step s = .refused (.undecodable r))

/-- The machine after reset is legal (10_state.md section 4, R18; section 10, R30). -/
def Obligations.ResetIsLegal : Prop := State.reset.Legal

/-- Every step keeps the legal values of 10_state.md R10, R17 and R18: `t0` a timestamp, no partial frame in IDLE, no
accumulator bit at position `bc` or above (the zeroing at reset and completion is the spec's own choice D4, D5). -/
def Obligations.StepKeepsLegal : Prop := ∀ s t : State, s.Legal → step s = .next t → t.Legal
end

