-- ==== Sys2Proof/Laws/Operands.lean ====
section
/-! SUPPORT. The operand forms in arithmetic: the duration bands as intervals, the duration table by state, and the bits
of bytes and frames. -/

namespace Sys2Proof.Machine

theorem isStart_iff {d : Nat} : isStart d = true ↔ 7000 ≤ d ∧ d ≤ 10000 := by
  simp [isStart, Config.startMinUs, Config.startMaxUs]

theorem isStart_false_iff {d : Nat} : isStart d = false ↔ d < 7000 ∨ 10000 < d := by
  rw [← Bool.not_eq_true, isStart_iff]; omega

theorem isBit0_iff {d : Nat} : isBit0 d = true ↔ d < 900 := by simp [isBit0, Config.bit0MaxUs]

theorem isBit0_false_iff {d : Nat} : isBit0 d = false ↔ 900 ≤ d := by
  rw [← Bool.not_eq_true, isBit0_iff]; omega

theorem isBit1_iff {d : Nat} : isBit1 d = true ↔ 1200 ≤ d ∧ d ≤ 2000 := by
  simp [isBit1, Config.bit1MinUs, Config.bit1MaxUs]

theorem isBit1_false_iff {d : Nat} : isBit1 d = false ↔ d < 1200 ∨ 2000 < d := by
  rw [← Bool.not_eq_true, isBit1_iff]; omega

theorem classify_idle_start {d : Nat} : classify .idle d = .startMarker ↔ 7000 ≤ d ∧ d ≤ 10000 := by
  rw [← isStart_iff]; cases h : isStart d <;> simp [classify, h]

theorem classify_idle_ignored {d : Nat} : classify .idle d = .ignored ↔ d < 7000 ∨ 10000 < d := by
  rw [← isStart_false_iff]; cases h : isStart d <;> simp [classify, h]

theorem classify_receiving_bit0 {d : Nat} : classify .receiving d = .bit0 ↔ d < 900 := by
  rw [← isBit0_iff]; cases h : isBit0 d <;> cases h1 : isBit1 d <;> simp [classify, h, h1]

theorem classify_receiving_bit1 {d : Nat} : classify .receiving d = .bit1 ↔ 1200 ≤ d ∧ d ≤ 2000 := by
  have h : isBit1 d = true → isBit0 d = false := by rw [isBit1_iff, isBit0_false_iff]; omega
  rw [← isBit1_iff]
  cases h0 : isBit0 d <;> cases h1 : isBit1 d <;> simp_all [classify]

theorem classify_receiving_violation {d : Nat} :
    classify .receiving d = .violation ↔ (900 ≤ d ∧ d ≤ 1199) ∨ 2001 ≤ d := by
  have h : (isBit0 d = false ∧ isBit1 d = false) ↔ (900 ≤ d ∧ d ≤ 1199) ∨ 2001 ≤ d := by
    rw [isBit0_false_iff, isBit1_false_iff]; omega
  rw [← h]
  cases h0 : isBit0 d <;> cases h1 : isBit1 d <;> simp [classify, h0, h1]

theorem usesY_iff {f : Frame} : usesY f = true ↔ 836 < rawX f ∨ 221 < rawY f := by
  simp [usesY, Config.xThresh, Config.yThresh]

theorem usesY_false_iff {f : Frame} : usesY f = false ↔ rawX f ≤ 836 ∧ rawY f ≤ 221 := by
  rw [← Bool.not_eq_true, usesY_iff]; omega

/-- What a realisation may return, as an interval around the exact result. -/
theorem tempRealises_iff {p : Params} {u : TempUnit} {f : Frame} {r : Rat} :
    TempRealises p u f r ↔ temperature u f - p.tempEps ≤ r ∧ r ≤ temperature u f + p.tempEps := by
  rw [TempRealises, abs_le]
  constructor <;> rintro ⟨h1, h2⟩ <;> constructor <;> linarith

theorem checksumValid_iff {f : Frame} : checksumValid f = true ↔ cksum f = f[6].toNat := decide_eq_true_iff

@[simp] theorem byteBits_length (v : Byte) : (byteBits v).length = 8 := rfl

@[simp] theorem frameBitList_length (f : Frame) : (frameBitList f).length = 56 := rfl

/-- Packing the bits of a byte gives the byte back. -/
@[simp] theorem packByte_byteBits (v : Byte) : packByte (byteBits v) = v := by
  revert v; decide +kernel

end Sys2Proof.Machine
end

