-- ==== Sys2Proof/Laws/State.lean ====
section
/-! SUPPORT. The fields of a state after each update, one lemma per field, and what each update is on the block. -/

namespace Sys2Proof.Machine

variable (s : State) (e : Effect) (b : Block) (p : Params)

@[simp] theorem State.commit_params : (s.commit e).params = s.params := rfl
@[simp] theorem State.commit_block : (s.commit e).block = e.block := rfl
@[simp] theorem State.commit_input : (s.commit e).input = s.input := rfl
@[simp] theorem State.commit_results : (s.commit e).results = s.results ++ e.result.toList := rfl
@[simp] theorem State.commit_notes : (s.commit e).notes = s.notes ++ e.note.toList := rfl
@[simp] theorem State.commit_trace :
    (s.commit e).trace = s.trace ++ (bif s.block.debug then e.emits else []) := rfl

/-- Two states are equal when their six fields are. -/
theorem State.eq_of_fields {s t : State} (hp : s.params = t.params) (hb : s.block = t.block)
    (hi : s.input = t.input) (hr : s.results = t.results) (hn : s.notes = t.notes) (ht : s.trace = t.trace) :
    s = t := by
  cases s; cases t; simp_all

/-- Taking over an effect that changes nothing and says nothing changes nothing. -/
@[simp] theorem State.commit_nothing : s.commit { block := s.block } = s := by
  refine State.eq_of_fields ?_ ?_ ?_ ?_ ?_ ?_ <;> simp

@[simp] theorem State.consumed_params : s.consumed.params = s.params := rfl
@[simp] theorem State.consumed_block : s.consumed.block = s.block := rfl
@[simp] theorem State.consumed_input : s.consumed.input = s.input.tail := rfl
@[simp] theorem State.consumed_results : s.consumed.results = s.results := rfl
@[simp] theorem State.consumed_notes : s.consumed.notes = s.notes := rfl
@[simp] theorem State.consumed_trace : s.consumed.trace = s.trace := rfl
@[simp] theorem State.consumed_select : s.consumed.select = s.select := rfl

@[simp] theorem State.placed_params (v : Event) : (s.placed v).params = s.params := rfl
@[simp] theorem State.placed_block (v : Event) : (s.placed v).block = s.block := rfl
@[simp] theorem State.placed_input (v : Event) : (s.placed v).input = v :: s.input := rfl
/-- Placing an event and consuming it gives the machine back. -/
@[simp] theorem State.placed_consumed (v : Event) : (s.placed v).consumed = s := rfl

@[simp] theorem State.select_tsMod : s.select.tsMod = s.params.tsMod := rfl
@[simp] theorem State.select_st : s.select.st = s.block.st := rfl
@[simp] theorem State.select_en : s.select.en = s.block.en := rfl
@[simp] theorem State.select_pend : s.select.pend = s.block.pend := rfl

@[simp] theorem Block.clearPartial_st : b.clearPartial.st = b.st := rfl
@[simp] theorem Block.clearPartial_pend : b.clearPartial.pend = b.pend := rfl
@[simp] theorem Block.clearPartial_t0 : b.clearPartial.t0 = b.t0 := rfl
@[simp] theorem Block.clearPartial_bi : b.clearPartial.bi = 0 := rfl
@[simp] theorem Block.clearPartial_bc : b.clearPartial.bc = 0 := rfl
@[simp] theorem Block.clearPartial_acc : b.clearPartial.acc = 0 := rfl
@[simp] theorem Block.clearPartial_W : b.clearPartial.W = b.W := rfl
@[simp] theorem Block.clearPartial_F : b.clearPartial.F = b.F := rfl
@[simp] theorem Block.clearPartial_rdy : b.clearPartial.rdy = b.rdy := rfl
@[simp] theorem Block.clearPartial_en : b.clearPartial.en = b.en := rfl
@[simp] theorem Block.clearPartial_unit : b.clearPartial.unit = b.unit := rfl
@[simp] theorem Block.clearPartial_debug : b.clearPartial.debug = b.debug := rfl

@[simp] theorem Block.powerOn_st : (Block.powerOn p).st = .idle := rfl
@[simp] theorem Block.powerOn_t0 : (Block.powerOn p).t0 = p.t0Reset := rfl
@[simp] theorem Block.powerOn_bi : (Block.powerOn p).bi = 0 := rfl
@[simp] theorem Block.powerOn_bc : (Block.powerOn p).bc = 0 := rfl
@[simp] theorem Block.powerOn_acc : (Block.powerOn p).acc = 0 := rfl
@[simp] theorem Block.powerOn_rdy : (Block.powerOn p).rdy = false := rfl

end Sys2Proof.Machine
end

