-- ==== Sys2Proof/Laws/Ops.lean ====
section
/-! SUPPORT. What each shared operation can do, said once: the buffers' read and write, the measurement of a low pulse,
the steps of framing with their cases, and the outcomes of an internal row. -/

namespace Sys2Proof.Machine

/-! ### The buffers -/

@[simp] theorem memRead_memWrite_same (B : Frame) (i : Fin 7) (v : Byte) : memRead (memWrite B i v) i = v := by
  simp [memRead, memWrite]

theorem memRead_memWrite_other (B : Frame) {i j : Fin 7} (v : Byte) (h : j ≠ i) :
    memRead (memWrite B i v) j = memRead B j := by
  have hne : i.val ≠ j.val := fun e => h (Fin.ext e.symm)
  simp [memRead, memWrite, hne]

/-- Two buffers are equal when their seven cells are. -/
theorem frame_ext {A B : Frame} (h : ∀ i, memRead A i = memRead B i) : A = B :=
  Vector.ext fun i hi => h ⟨i, hi⟩

/-! ### Measuring a low pulse (40_edge_capture.md R83, R86) -/

theorem lowDur_lt {m t0 now : Nat} (h : 0 < m) : lowDur m t0 now < m := by
  have h1 := Int.emod_lt_of_pos ((now : Int) - t0) (by omega : (0 : Int) < m)
  have h2 := Int.emod_nonneg ((now : Int) - t0) (by omega : (m : Int) ≠ 0)
  unfold lowDur
  omega

/-- The measured duration is the one residue that leads from `t0` to `now`. -/
theorem lowDur_eq {m t0 now d : Nat} (hd : d < m) (h : (t0 + d) % m = now % m) : lowDur m t0 now = d := by
  have hz : ((t0 + d : Nat) : Int) % m = ((now : Nat) : Int) % m := by exact_mod_cast h
  have hs : ((now : Int) - t0) % m = (d : Int) % m := by
    have := Int.emod_emod_of_dvd ((now : Int) - t0) (dvd_refl (m : Int))
    rw [Int.sub_emod, ← hz, ← Int.sub_emod]
    push_cast
    ring_nf
  rw [lowDur, hs, Int.emod_eq_of_lt (by omega) (by omega), Int.toNat_natCast]

/-- A low pulse of `d` µs is measured as `d mod TS_MOD`. -/
theorem lowDur_riseAt {m : Nat} (hm : 0 < m) (p : LowPulse) : lowDur m p.fall (riseAt m p) = p.dur % m := by
  refine lowDur_eq (Nat.mod_lt _ hm) ?_
  simp [riseAt, Nat.add_mod]

/-! ### Framing (41_decoder_fsm.md R96 to R99) -/

/-- What FRAME_DONE does, by the slot. -/
theorem frameDone_cases (b : Block) :
    (b.rdy = false ∧ frameDone b =
      { block := { b with F := b.W, rdy := true, st := .idle, bi := 0 }, emits := [.frameComplete] }) ∨
    (b.rdy = true ∧ frameDone b = { block := { b with st := .idle, bi := 0 }, note := some .overrun }) := by
  cases h : b.rdy <;> simp [frameDone, h]

/-- What BYTE_DONE does, by the position of the byte. -/
theorem byteDone_cases (v : Byte) (b : Block) :
    (∃ h : b.bi.val + 1 < 7, byteDone v b =
      { block := { b with W := memWrite b.W b.bi v, acc := 0, bc := 0, bi := ⟨b.bi.val + 1, h⟩ } }) ∨
    (b.bi.val = 6 ∧ byteDone v b = frameDone { b with W := memWrite b.W b.bi v, acc := 0, bc := 0 }) := by
  by_cases h : b.bi.val + 1 < 7
  · exact .inl ⟨h, by simp [byteDone, h]⟩
  · exact .inr ⟨by have := b.bi.isLt; omega, by simp [byteDone, h]⟩

/-- What ACCEPT does, by the position of the bit. -/
theorem accept_cases (x : Bool) (b : Block) :
    (∃ h : b.bc.val + 1 < 8, accept x b =
      { block := { b with acc := shiftIn b.acc b.bc x, bc := ⟨b.bc.val + 1, h⟩ } }) ∨
    (b.bc.val = 7 ∧ accept x b = byteDone (shiftIn b.acc b.bc x) b) := by
  by_cases h : b.bc.val + 1 < 8
  · exact .inl ⟨h, by simp [accept, h]⟩
  · exact .inr ⟨by have := b.bc.isLt; omega, by simp [accept, h]⟩

/-- The four things an accepted bit can do: place the bit, store a byte, publish a frame, drop a frame. -/
theorem accept_block_cases (x : Bool) (b : Block) :
    (∃ h : b.bc.val + 1 < 8, accept x b =
      { block := { b with acc := shiftIn b.acc b.bc x, bc := ⟨b.bc.val + 1, h⟩ } }) ∨
    (b.bc.val = 7 ∧ ∃ h : b.bi.val + 1 < 7, accept x b =
      { block := { b with
          W := memWrite b.W b.bi (shiftIn b.acc b.bc x), acc := 0, bc := 0, bi := ⟨b.bi.val + 1, h⟩ } }) ∨
    (b.bc.val = 7 ∧ b.bi.val = 6 ∧ b.rdy = false ∧ accept x b =
      { block := { b with
          W := memWrite b.W b.bi (shiftIn b.acc b.bc x), F := memWrite b.W b.bi (shiftIn b.acc b.bc x),
          rdy := true, st := .idle, bi := 0, acc := 0, bc := 0 }
        emits := [.frameComplete] }) ∨
    (b.bc.val = 7 ∧ b.bi.val = 6 ∧ b.rdy = true ∧ accept x b =
      { block := { b with
          W := memWrite b.W b.bi (shiftIn b.acc b.bc x), st := .idle, bi := 0, acc := 0, bc := 0 }
        note := some .overrun }) := by
  obtain h | ⟨h7, ha⟩ := accept_cases x b
  · exact .inl h
  · obtain ⟨h, hb⟩ | ⟨h6, hb⟩ := byteDone_cases (shiftIn b.acc b.bc x) b
    · exact .inr (.inl ⟨h7, h, ha.trans hb⟩)
    · obtain ⟨hr, hf⟩ | ⟨hr, hf⟩ :=
        frameDone_cases { b with W := memWrite b.W b.bi (shiftIn b.acc b.bc x), acc := 0, bc := 0 }
      · exact .inr (.inr (.inl ⟨h7, h6, hr, (ha.trans hb).trans hf⟩))
      · exact .inr (.inr (.inr ⟨h7, h6, hr, (ha.trans hb).trans hf⟩))

/-! ### The pulse operations and the edges -/

/-- The five things PULSE can do, by the duration table. -/
theorem pulse_cases (d : Nat) (b : Block) :
    (b.st = .idle ∧ isStart d = true ∧ pulse d b = startEffect d b) ∨
    (b.st = .idle ∧ isStart d = false ∧ pulse d b = ignoreEffect b) ∨
    (b.st = .receiving ∧ isBit0 d = true ∧ pulse d b = bitEffect false d b) ∨
    (b.st = .receiving ∧ isBit1 d = true ∧ pulse d b = bitEffect true d b) ∨
    (b.st = .receiving ∧ isBit0 d = false ∧ isBit1 d = false ∧ pulse d b = abortEffect d b) := by
  cases hs : b.st <;> cases h0 : isStart d <;> cases h1 : isBit0 d <;> cases h2 : isBit1 d <;>
    simp [pulse, classify, hs, h0, h1, h2]

/-- What an accepted bit never touches. -/
theorem accept_keeps (x : Bool) (b : Block) :
    (accept x b).block.pend = b.pend ∧ (accept x b).block.t0 = b.t0 ∧ (accept x b).block.en = b.en ∧
      (accept x b).block.unit = b.unit ∧ (accept x b).block.debug = b.debug ∧ (accept x b).result = none := by
  obtain ⟨_, h⟩ | ⟨_, _, h⟩ | ⟨_, _, _, h⟩ | ⟨_, _, _, h⟩ := accept_block_cases x b <;> simp [h]

/-- What PULSE never touches: `pend`, `t0` and the control bits; it returns nothing. -/
theorem pulse_keeps (d : Nat) (b : Block) :
    (pulse d b).block.pend = b.pend ∧ (pulse d b).block.t0 = b.t0 ∧ (pulse d b).block.en = b.en ∧
      (pulse d b).block.unit = b.unit ∧ (pulse d b).block.debug = b.debug ∧ (pulse d b).result = none := by
  obtain ⟨-, -, h⟩ | ⟨-, -, h⟩ | ⟨-, -, h⟩ | ⟨-, -, h⟩ | ⟨-, -, -, h⟩ := pulse_cases d b <;> rw [h]
  · simp [startEffect]
  · simp [ignoreEffect]
  · exact accept_keeps false b
  · exact accept_keeps true b
  · simp [abortEffect]

/-- A falling edge delivered. -/
theorem fallEffect_enabled {b : Block} (now : Nat) (h : b.en = true) :
    fallEffect now b = { block := { b with t0 := now, pend := true } } := by simp [fallEffect, h]

/-- A falling edge not delivered. -/
theorem fallEffect_disabled {b : Block} (now : Nat) (h : b.en = false) : fallEffect now b = { block := b } := by
  simp [fallEffect, h]

/-- A rising edge that is measured. -/
theorem riseEffect_measured {b : Block} (m now : Nat) (he : b.en = true) (hp : b.pend = true) :
    riseEffect m now b = pulse (lowDur m b.t0 now) { b with pend := false } := by
  simp [riseEffect, measuredEffect, he, hp]

/-- A rising edge not delivered. -/
theorem riseEffect_disabled {b : Block} (m now : Nat) (h : b.en = false) : riseEffect m now b = { block := b } := by
  simp [riseEffect, spuriousEffect, h]

/-- A rising edge with nothing to measure. -/
theorem riseEffect_spurious {b : Block} (m now : Nat) (he : b.en = true) (hp : b.pend = false) :
    riseEffect m now b = { block := b, note := some .spuriousEdge } := by
  simp [riseEffect, spuriousEffect, he, hp]

/-- One low pulse on a line whose edges are delivered: its duration, reduced, is classified. -/
theorem lowPulse_enabled {s : State} (p : LowPulse) (hm : 0 < s.params.tsMod) (he : s.block.en = true) :
    lowPulse s p = s.commit (pulse (p.dur % s.params.tsMod) { s.block with t0 := p.fall, pend := false }) := by
  simp only [lowPulse, fallEffect_enabled _ he]
  rw [riseEffect_measured _ _ (by simpa using he) (by simp)]
  simp only [State.commit_params, State.commit_block, lowDur_riseAt hm]
  refine State.eq_of_fields rfl rfl rfl ?_ ?_ ?_ <;> simp

/-- One low pulse on a line whose edges are not delivered. -/
theorem lowPulse_disabled {s : State} (p : LowPulse) (he : s.block.en = false) : lowPulse s p = s := by
  simp [lowPulse, fallEffect_disabled _ he, riseEffect_disabled _ _ he]

/-! ### Internal rows -/

/-- An internal row answers a next state exactly where it is selected, and that state is its effect taken over. -/
theorem whenSelected_next {i : Instr} {s t : State} {e : Effect} :
    whenSelected i s e = .next t ↔ i.wf s.params.tsMod = true ∧ i.selected s.select = true ∧ t = s.commit e := by
  unfold whenSelected
  split
  · rename_i h
    simp only [Bool.and_eq_true] at h
    simp [h.1, h.2, eq_comm]
  · rename_i h
    simp only [Bool.and_eq_true, not_and] at h
    constructor
    · intro hc; cases hc
    · rintro ⟨h1, h2, -⟩
      exact absurd h2 (h h1)

/-- An internal row that is selected. -/
theorem whenSelected_of {i : Instr} {s : State} (e : Effect) (h1 : i.wf s.params.tsMod = true)
    (h2 : i.selected s.select = true) : whenSelected i s e = .next (s.commit e) := by
  simp [whenSelected, h1, h2]

/-- An internal row that is not selected. -/
theorem whenSelected_not {i : Instr} {s : State} (e : Effect)
    (h : ¬ (i.wf s.params.tsMod = true ∧ i.selected s.select = true)) :
    whenSelected i s e = .refused .notSelected := by
  rw [← Bool.and_eq_true] at h
  simp [whenSelected, h]

end Sys2Proof.Machine
end

