-- ==== Sys2Proof/Laws/Exec.lean ====
section
/-! SUPPORT. The meanings in terms of the shared operations: a pulse row is PULSE where it is selected, a bit row is the
bit effect, a step performs the row its event decodes to. -/

namespace Sys2Proof.Machine

/-- The row a duration selects is performed, and is PULSE (41_decoder_fsm.md R90). -/
theorem exec_decodePulse {d : Nat} {s : State} (h : d < s.params.tsMod) :
    exec (decodePulse s.block.st d) s = .next (s.commit (pulse d s.block)) := by
  unfold decodePulse pulse
  cases hc : classify s.block.st d
  all_goals
    have hs := hc
    cases hst : s.block.st <;> rw [hst] at hs <;> simp only [classify] at hs
  all_goals first
    | (split at hs <;> first | (cases hs; done) | (split at hs <;> cases hs; done))
    | skip
  all_goals
    simp only [exec, execPStart, execPIdleIgnore, execPBit0, execPBit1, execPAbort]
    apply whenSelected_of <;> simp_all [Instr.wf, Instr.selected]

/-- A bit pulse in RECEIVING selects its row. -/
theorem exec_bitRow {x : Bool} {d : Nat} {s : State} (hs : s.block.st = .receiving) (hc : Carries x d)
    (hd : d < s.params.tsMod) : exec (bitRow x d) s = .next (s.commit (bitEffect x d s.block)) := by
  cases x
  · refine whenSelected_of _ ?_ (by simp [Instr.selected, hs])
    simpa [Instr.wf, hd] using classify_receiving_bit0.2 hc
  · refine whenSelected_of _ ?_ (by simp [Instr.selected, hs])
    simpa [Instr.wf, hd] using classify_receiving_bit1.2 hc

/-- A bit row answers a next state exactly in RECEIVING, for a pulse that carries its bit. -/
theorem exec_bitRow_next {x : Bool} {d : Nat} {s t : State} (h : exec (bitRow x d) s = .next t) :
    s.block.st = .receiving ∧ Carries x d ∧ d < s.params.tsMod ∧ t = s.commit (bitEffect x d s.block) := by
  cases x
  · obtain ⟨hw, hs, ht⟩ := whenSelected_next.1 (show whenSelected (.pBit0 d) s _ = .next t from h)
    simp only [Instr.wf, Instr.selected, Bool.and_eq_true, decide_eq_true_eq] at hw hs
    exact ⟨hs, classify_receiving_bit0.1 hw.2, hw.1, ht⟩
  · obtain ⟨hw, hs, ht⟩ := whenSelected_next.1 (show whenSelected (.pBit1 d) s _ = .next t from h)
    simp only [Instr.wf, Instr.selected, Bool.and_eq_true, decide_eq_true_eq] at hw hs
    exact ⟨hs, classify_receiving_bit1.1 hw.2, hw.1, ht⟩

/-- PULSE of a pulse that carries a bit, in RECEIVING. -/
theorem pulse_bit {x : Bool} {d : Nat} {b : Block} (hs : b.st = .receiving) (hc : Carries x d) :
    pulse d b = bitEffect x d b := by
  cases x
  · simp [pulse, hs, classify_receiving_bit0.2 hc]
  · simp [pulse, hs, classify_receiving_bit1.2 hc]

/-- A step with an event to come performs the row it decodes to. -/
theorem step_event {s : State} {e : Event} {rest : List Event} {i : Instr} (h : s.input = e :: rest)
    (hd : decode s.select (.event e) = .ok i) : step s = exec i { s with input := rest } := by
  simp [step, State.nextRow, h, hd, State.consumed]

/-- A step with nothing to come. -/
theorem step_idle {s : State} (h : s.input = []) : step s = .next s := by simp [step, State.nextRow, h]

/-- A step with an event outside the input format. -/
theorem step_undecodable {s : State} {e : Event} {rest : List Event} {r : DecodeError} (h : s.input = e :: rest)
    (hd : decode s.select (.event e) = .error r) : step s = .refused (.undecodable r) := by
  simp [step, State.nextRow, h, hd]

end Sys2Proof.Machine
end

