-- ==== Sys2Proof/Laws/Edges.lean ====
section
/-! SUPPORT. What the edge context keeps: the slot rule of an accepted bit, of a pulse and of an edge, and the relation
`EdgeKeeps` that every edge, pulse and transmission satisfies. -/

namespace Sys2Proof.Machine

/-- The slot rule: a full slot is not touched; F changes only by publishing all of W from a free slot. -/
def SlotRule (b b' : Block) : Prop :=
  (b.rdy = true → b'.rdy = true ∧ b'.F = b.F) ∧
  ((b'.F = b.F ∧ b'.rdy = b.rdy) ∨ (b.rdy = false ∧ b'.rdy = true ∧ b'.F = b'.W ∧ b'.st = .idle))

theorem SlotRule.refl_of {b b' : Block} (hF : b'.F = b.F) (hr : b'.rdy = b.rdy) : SlotRule b b' :=
  ⟨fun h => ⟨hr.trans h, hF⟩, .inl ⟨hF, hr⟩⟩

theorem accept_slot (x : Bool) (b : Block) : SlotRule b (accept x b).block := by
  obtain ⟨h8, hx⟩ | ⟨h7, h, hx⟩ | ⟨h7, h6, hr, hx⟩ | ⟨h7, h6, hr, hx⟩ := accept_block_cases x b <;> rw [hx] <;>
    simp_all [SlotRule]

theorem pulse_slot (d : Nat) (b : Block) : SlotRule b (pulse d b).block := by
  obtain ⟨-, -, h⟩ | ⟨-, -, h⟩ | ⟨-, -, h⟩ | ⟨-, -, h⟩ | ⟨-, -, -, h⟩ := pulse_cases d b <;> rw [h]
  · exact .refl_of rfl rfl
  · exact .refl_of rfl rfl
  · exact accept_slot false b
  · exact accept_slot true b
  · exact .refl_of rfl rfl

/-- The three things a rising edge can do. -/
theorem riseEffect_cases (m now : Nat) (b : Block) :
    (b.en = false ∧ riseEffect m now b = { block := b }) ∨
    (b.en = true ∧ b.pend = false ∧ riseEffect m now b = { block := b, note := some .spuriousEdge }) ∨
    (b.en = true ∧ b.pend = true ∧ riseEffect m now b = pulse (lowDur m b.t0 now) { b with pend := false }) := by
  rcases Bool.eq_false_or_eq_true b.en with he | he
  · rcases Bool.eq_false_or_eq_true b.pend with hp | hp
    · exact .inr (.inr ⟨he, hp, riseEffect_measured _ _ he hp⟩)
    · exact .inr (.inl ⟨he, hp, riseEffect_spurious _ _ he hp⟩)
  · exact .inl ⟨he, riseEffect_disabled _ _ he⟩

theorem riseEffect_slot (m now : Nat) (b : Block) : SlotRule b (riseEffect m now b).block := by
  obtain ⟨-, h⟩ | ⟨-, -, h⟩ | ⟨-, -, h⟩ := riseEffect_cases m now b <;> rw [h]
  · exact .refl_of rfl rfl
  · exact .refl_of rfl rfl
  · exact pulse_slot _ { b with pend := false }

/-- What a rising edge never touches; it returns nothing. -/
theorem riseEffect_keeps (m now : Nat) (b : Block) :
    (riseEffect m now b).block.t0 = b.t0 ∧ (riseEffect m now b).block.en = b.en ∧
      (riseEffect m now b).block.unit = b.unit ∧ (riseEffect m now b).block.debug = b.debug ∧
      (riseEffect m now b).result = none := by
  obtain ⟨-, h⟩ | ⟨-, -, h⟩ | ⟨-, -, h⟩ := riseEffect_cases m now b <;> rw [h]
  · simp
  · simp
  · exact (pulse_keeps (lowDur m b.t0 now) { b with pend := false }).2

/-- What a falling edge never touches; it returns, notes and traces nothing. -/
theorem fallEffect_keeps (now : Nat) (b : Block) :
    (fallEffect now b).block.F = b.F ∧ (fallEffect now b).block.rdy = b.rdy ∧ (fallEffect now b).block.en = b.en ∧
      (fallEffect now b).block.unit = b.unit ∧ (fallEffect now b).block.debug = b.debug ∧
      (fallEffect now b).result = none ∧ (fallEffect now b).note = none ∧ (fallEffect now b).emits = [] := by
  cases he : b.en <;> simp [fallEffect, he]

/-- What holds between the machine before and after any operation of the edge context. -/
def EdgeKeeps (s t : State) : Prop :=
  t.block.en = s.block.en ∧ t.block.unit = s.block.unit ∧ t.block.debug = s.block.debug ∧ t.params = s.params ∧
    t.input = s.input ∧ t.results = s.results ∧
    (s.block.rdy = true → t.block.rdy = true ∧ t.block.F = s.block.F)

theorem EdgeKeeps.same {s : State} : EdgeKeeps s s :=
  ⟨.refl _, .refl _, .refl _, .refl _, .refl _, .refl _, fun h => ⟨h, .refl _⟩⟩

theorem EdgeKeeps.trans {s t u : State} (h1 : EdgeKeeps s t) (h2 : EdgeKeeps t u) : EdgeKeeps s u := by
  obtain ⟨a1, a2, a3, a4, a5, a6, a7⟩ := h1
  obtain ⟨b1, b2, b3, b4, b5, b6, b7⟩ := h2
  exact ⟨b1.trans a1, b2.trans a2, b3.trans a3, b4.trans a4, b5.trans a5, b6.trans a6,
    fun h => ⟨(b7 (a7 h).1).1, (b7 (a7 h).1).2.trans (a7 h).2⟩⟩

theorem edgeKeeps_fall (now : Nat) (s : State) : EdgeKeeps s (s.commit (fallEffect now s.block)) := by
  simp [EdgeKeeps, fallEffect_keeps now s.block]

theorem edgeKeeps_rise (now : Nat) (s : State) :
    EdgeKeeps s (s.commit (riseEffect s.params.tsMod now s.block)) := by
  obtain ⟨-, h2, h3, h4, h5⟩ := riseEffect_keeps s.params.tsMod now s.block
  exact ⟨h2, h3, h4, .refl _, .refl _, by rw [State.commit_results, h5]; simp, (riseEffect_slot _ now s.block).1⟩

theorem edgeKeeps_pulse (d : Nat) (s : State) : EdgeKeeps s (s.commit (pulse d s.block)) := by
  obtain ⟨-, -, h3, h4, h5, h6⟩ := pulse_keeps d s.block
  exact ⟨h3, h4, h5, .refl _, .refl _, by rw [State.commit_results, h6]; simp, (pulse_slot d s.block).1⟩

theorem edgeKeeps_lowPulse (s : State) (p : LowPulse) : EdgeKeeps s (lowPulse s p) :=
  (edgeKeeps_fall _ _).trans (edgeKeeps_rise _ _)

theorem edgeKeeps_foldl (ps : List LowPulse) (s : State) : EdgeKeeps s (ps.foldl lowPulse s) := by
  induction ps generalizing s with
  | nil => exact .same
  | cons p ps ih => exact (edgeKeeps_lowPulse s p).trans (ih _)

/-- A pulse row that answers a next state is PULSE of its duration. -/
theorem exec_decodePulse_next {d : Nat} {s t : State} (h : exec (decodePulse s.block.st d) s = .next t) :
    t = s.commit (pulse d s.block) ∧ d < s.params.tsMod := by
  have key : d < s.params.tsMod := by
    unfold decodePulse at h
    split at h <;> simp only [exec, execPStart, execPIdleIgnore, execPBit0, execPBit1, execPAbort] at h <;>
      obtain ⟨h1, _⟩ := whenSelected_next.1 h <;>
      simp only [Instr.wf, Bool.and_eq_true, decide_eq_true_eq] at h1 <;> exact h1.1
  rw [exec_decodePulse key] at h
  exact ⟨(Host.Outcome.next.inj h).symm, key⟩

end Sys2Proof.Machine
end

