-- ==== Sys2Proof/Laws/Notation.lean ====
section
/-! SUPPORT. The trace notation read and written (30_encoding.md R72): texts, words, numbers, bytes and names are read
back as they were written. -/

namespace Sys2Proof.Trace

open Machine

/-- A character that may stand in a word: printable ASCII, neither a blank nor the `;` of a comment. -/
def plain (c : Char) : Bool := decide (33 ≤ c.toNat ∧ c.toNat < 128 ∧ c.toNat ≠ 59)

/-- A character that may stand in a line. -/
def plainOrSpace (c : Char) : Bool := decide (32 ≤ c.toNat ∧ c.toNat < 128 ∧ c.toNat ≠ 59)

/-- A written line is read as its text. -/
theorem lineText_textBytes (cs : List Char) (h : ∀ c ∈ cs, plainOrSpace c = true) :
    lineText (textBytes cs) = cs := by
  induction cs with
  | nil => rfl
  | cons c cs ih =>
    have hc := h c (by simp)
    simp only [plainOrSpace, decide_eq_true_eq] at hc
    have e : (BitVec.ofNat 8 c.toNat).toNat = c.toNat := by simp; omega
    have hne : ∀ b : Byte, b.toNat ≠ c.toNat → ¬ BitVec.ofNat 8 c.toNat = b := fun b hb h => hb (by rw [← h, e])
    have h0 := hne 0 (by simp; omega)
    have h1 := hne 10 (by simp; omega)
    have h2 := hne 59 (by simp; omega)
    simp only [textBytes, List.map_cons, lineText]
    rw [if_neg (by simp only [beq_iff_eq, Bool.or_eq_true]; tauto), e]
    rw [show List.map (fun c => BitVec.ofNat 8 c.toNat) cs = textBytes cs from rfl,
      ih (fun c hc => h c (by simp [hc]))]
    simp

/-- The characters of a word are taken into the word begun. -/
theorem wordsFrom_append (cs : List Char) (h : ∀ c ∈ cs, isBlank c = false) :
    ∀ w rest, wordsFrom w (cs ++ rest) = wordsFrom (w ++ cs) rest := by
  induction cs with
  | nil => simp
  | cons c cs ih =>
    intro w rest
    have hc := h c (by simp)
    simp only [List.cons_append, wordsFrom, hc]
    simp
    rw [ih (fun c hc => h c (by simp [hc]))]; simp

/-- Words written with one space between them are read as those words. -/
theorem wordsFrom_joinWords (ws : List (List Char)) (h : ∀ w ∈ ws, w ≠ [] ∧ ∀ c ∈ w, isBlank c = false) :
    wordsFrom [] (joinWords ws) = ws := by
  induction ws with
  | nil => rfl
  | cons w ws ih =>
    obtain ⟨h1, h2⟩ := h w (by simp)
    have ih := ih (fun w hw => h w (by simp [hw]))
    cases ws with
    | nil =>
      have := wordsFrom_append w h2 [] []
      simp only [joinWords]
      simp at this; rw [this]; simp [wordsFrom, h1]
    | cons w' ws =>
      simp only [joinWords]
      rw [wordsFrom_append w h2, wordsFrom]
      simp [isBlank, h1, ih]

theorem not_blank_of_plain {c} (h : plain c = true) : isBlank c = false := by
  simp only [plain, decide_eq_true_eq] at h
  simp only [isBlank, Bool.or_eq_false_iff, beq_eq_false_iff_ne]
  refine ⟨⟨?_, ?_⟩, ?_⟩ <;> rintro rfl <;> simp at h

theorem plain_or_space {c} (h : plain c = true) : plainOrSpace c = true := by
  simp only [plain, plainOrSpace, decide_eq_true_eq] at *; omega

theorem joinWords_plain (ws : List (List Char)) (h : ∀ w ∈ ws, ∀ c ∈ w, plain c = true) :
    ∀ c ∈ joinWords ws, plainOrSpace c = true := by
  induction ws with
  | nil => simp [joinWords]
  | cons w ws ih =>
    have ih := ih (fun w hw => h w (by simp [hw]))
    have hw := h w (by simp)
    cases ws with
    | nil => simp only [joinWords]; exact fun c hc => plain_or_space (hw c hc)
    | cons w' ws =>
      simp only [joinWords, List.mem_append, List.mem_cons]
      rintro c (hc | rfl | hc)
      · exact plain_or_space (hw c hc)
      · decide
      · exact ih c hc

/-- A word a line may hold: not empty, not the arrow before an expected result, of plain characters. -/
def IsWord (w : List Char) : Prop := w ≠ [] ∧ w ≠ ['-', '>'] ∧ ∀ c ∈ w, plain c = true

/-- The words of a written line. -/
theorem lineWords_joinWords (ws : List (List Char)) (h : ∀ w ∈ ws, IsWord w) :
    lineWords (textBytes (joinWords ws)) = ws := by
  rw [lineWords, lineText_textBytes _ (joinWords_plain _ (fun w hw => (h w hw).2.2)),
    wordsFrom_joinWords _ (fun w hw => ⟨(h w hw).1, fun c hc => not_blank_of_plain ((h w hw).2.2 c hc)⟩)]
  rw [List.takeWhile_eq_self_iff]
  intro w hw; simpa using (h w hw).2.1

/-! ### Numbers, bytes, names -/
theorem decimalValue_digitChar : ∀ n : Fin 10, decimalValue (digitChar n.val) = some n.val := by decide

theorem digitChar_plain : ∀ n : Fin 10, plain (digitChar n.val) = true := by decide

theorem digitChar_ne_dash : ∀ n : Fin 10, digitChar n.val ≠ '-' := by decide

theorem decimalFrom_append (cs ds : List Char) :
    ∀ acc, decimalFrom acc (cs ++ ds) = (decimalFrom acc cs).bind (fun a => decimalFrom a ds) := by
  induction cs with
  | nil => intro acc; rfl
  | cons c cs ih =>
    intro acc
    simp only [List.cons_append, decimalFrom]
    cases decimalValue c <;> simp [ih]

theorem decimalDigits_spec (fuel : Nat) :
    ∀ n, n < fuel → decimalFrom 0 (decimalDigits fuel n) = some n ∧ decimalDigits fuel n ≠ [] ∧ ∀ c ∈ decimalDigits fuel n, plain c = true ∧ c ≠ '-' := by
  induction fuel with
  | zero => intro n h; omega
  | succ fuel ih =>
    intro n h
    rw [decimalDigits]
    split
    · rename_i h10
      refine ⟨?_, by simp, by simpa using ⟨digitChar_plain ⟨n, h10⟩, digitChar_ne_dash ⟨n, h10⟩⟩⟩
      simp [decimalFrom, decimalValue_digitChar ⟨n, h10⟩]
    · obtain ⟨i1, i2, i3⟩ := ih (n / 10) (by omega)
      refine ⟨?_, by simp, ?_⟩
      · rw [decimalFrom_append, i1]
        simp [decimalFrom, decimalValue_digitChar ⟨n % 10, by omega⟩]; omega
      · intro c hc
        simp at hc
        rcases hc with hc | rfl
        · exact i3 c hc
        · exact ⟨digitChar_plain ⟨n % 10, by omega⟩, digitChar_ne_dash ⟨n % 10, by omega⟩⟩

theorem readNat_writeNat (n) : readNat (writeNat n) = some n := by
  obtain ⟨h1, h2, -⟩ := decimalDigits_spec (n+1) n (by omega)
  unfold writeNat
  cases hh : decimalDigits (n+1) n with
  | nil => exact absurd hh h2
  | cons c cs => rw [readNat, ← hh, h1]

theorem writeNat_isWord (n : Nat) : IsWord (writeNat n) := by
  obtain ⟨h1, h2, h3⟩ := decimalDigits_spec (n+1) n (by omega)
  refine ⟨h2, ?_, fun c hc => (h3 c hc).1⟩
  intro h; have := h3 '-' (by rw [writeNat] at h; rw [h]; simp); exact this.2 rfl

theorem readByte_writeByte : ∀ b : Byte, readByte (writeByte b) = some b := by decide +kernel

theorem hexChar_plain : ∀ n : Fin 16, plain (hexChar n.val) = true ∧ hexChar n.val ≠ '-' := by decide

theorem writeByte_isWord (b : Byte) : IsWord (writeByte b) := by
  have h1 := hexChar_plain ⟨b.toNat / 16, by have := b.isLt; omega⟩
  have h2 := hexChar_plain ⟨b.toNat % 16, by omega⟩
  simp only at h1 h2
  exact ⟨by simp [writeByte], by simp [writeByte, h1], by simp [writeByte, h1, h2]⟩

theorem readFrame_writeFrame (f : Frame) : readFrame (writeFrame f) = some f := by
  simp only [writeFrame, readFrame, readByte_writeByte]
  congr 1
  exact frame_ext (by intro i; fin_cases i <;> rfl)

theorem writeFrame_isWord (f : Frame) : ∀ w ∈ writeFrame f, IsWord w := by
  simp only [writeFrame, List.mem_cons, List.not_mem_nil, or_false]
  rintro w (rfl | rfl | rfl | rfl | rfl | rfl | rfl) <;> exact writeByte_isWord _

theorem readKeyword_spelling : ∀ k : Keyword, readKeyword k.spelling = some k := by intro k; cases k <;> decide

theorem spelling_isWord (k : Keyword) : IsWord k.spelling := by
  have h : ∀ k : Keyword, k.spelling ≠ [] ∧ k.spelling ≠ ['-', '>'] ∧ k.spelling.all plain = true := by
    intro k; cases k <;> decide
  obtain ⟨a, b, c⟩ := h k
  exact ⟨a, b, by simpa using c⟩

/-- A line that spells a name and its operands is read as the operation they name. -/
theorem readLine_words (m t) (k : Keyword) (args : List (List Char)) (e : Event) (ha : ∀ w ∈ args, IsWord w)
   (hr : readOperation m t k args = some e) : readLine m t (textBytes (joinWords (k.spelling :: args))) = .ok e := by
  rw [readLine, lineWords_joinWords _ (by
    intro w hw
    rcases List.mem_cons.1 hw with rfl | hw
    · exact spelling_isWord k
    · exact ha w hw)]
  simp only [readKeyword_spelling, hr]

end Sys2Proof.Trace
end

