-- ==== Sys2Proof/Laws/Packing.lean ====
section
/-! SUPPORT. Bits, bytes and frames in wire order: appending one received bit, the frame and its 56 bits as inverses of
each other, and what a list of durations carries. -/

namespace Sys2Proof.Machine

/-- One more bit stands at the position after the bits there are. -/
theorem packByte_append (l : List Bool) (x : Bool) :
    packByte (l ++ [x]) = packByte l ||| ((if x then 1#8 else 0#8) <<< l.length) := by
  induction l with
  | nil => simp [packByte]
  | cons b l ih =>
    simp only [List.cons_append, packByte, ih, BitVec.shiftLeft_or_distrib, List.length_cons, BitVec.shiftLeft_add,
      BitVec.or_assoc]

/-- A finished byte is not touched by a later bit. -/
theorem packAt_append_before (bs : List Bool) (x : Bool) (i : Nat) (h : 8 * i + 8 ≤ bs.length) :
    packAt (bs ++ [x]) i = packAt bs i := by
  simp only [packAt]
  rw [List.drop_append_of_le_length (by omega), List.take_append_of_le_length (by simp; omega)]

/-- The byte being received takes the bit at position `k`. -/
theorem packAt_append_at (bs : List Bool) (x : Bool) (i k : Nat) (h : bs.length = 8 * i + k) (hk : k < 8) :
    packAt (bs ++ [x]) i = packAt bs i ||| ((if x then 1#8 else 0#8) <<< k) := by
  simp only [packAt]
  rw [List.drop_append_of_le_length (by omega), List.take_of_length_le (by simp; omega), packByte_append,
    List.take_of_length_le (by simp; omega)]
  simp [h]

/-- A byte of which nothing has been received is zero. -/
theorem packAt_end (bs : List Bool) (i : Nat) (h : bs.length ≤ 8 * i) : packAt bs i = 0 := by
  simp [packAt, List.drop_eq_nil_of_le h, packByte]

theorem memRead_packFrame (bs : List Bool) (i : Fin 7) : memRead (packFrame bs) i = packAt bs i := by
  fin_cases i <;> rfl

theorem byteBits_packByte_eight :
    ∀ a b c d e f g h : Bool, byteBits (packByte [a, b, c, d, e, f, g, h]) = [a, b, c, d, e, f, g, h] := by
  decide

/-- The bits of a packed byte are the bits it was packed from. -/
theorem byteBits_packByte (l : List Bool) (h : l.length = 8) : byteBits (packByte l) = l := by
  match l, h with
  | [a, b, c, d, e, f, g, k], _ => exact byteBits_packByte_eight a b c d e f g k

/-- A list of 56 bits is its seven groups of eight. -/
theorem take_drop_seven (bs : List Bool) (h : bs.length = 56) :
    (bs.drop (8 * 0)).take 8 ++ (bs.drop (8 * 1)).take 8 ++ (bs.drop (8 * 2)).take 8 ++ (bs.drop (8 * 3)).take 8 ++
      (bs.drop (8 * 4)).take 8 ++ (bs.drop (8 * 5)).take 8 ++ (bs.drop (8 * 6)).take 8 = bs := by
  have e : ∀ i, (bs.drop (8 * i)).take 8 ++ bs.drop (8 * (i + 1)) = bs.drop (8 * i) := by
    intro i
    conv_rhs => rw [← List.take_append_drop 8 (bs.drop (8 * i))]
    rw [List.drop_drop]; rfl
  have e6 : (bs.drop (8 * 6)).take 8 = bs.drop (8 * 6) := List.take_of_length_le (by simp; omega)
  rw [e6]
  simp only [List.append_assoc]
  rw [e 5, e 4, e 3, e 2, e 1, e 0]; simp

/-- The wire order of the frame 56 bits spell is those bits. -/
theorem frameBitList_packFrame (bs : List Bool) (h : bs.length = 56) : frameBitList (packFrame bs) = bs := by
  have e : ∀ i, i < 7 → byteBits (packAt bs i) = (bs.drop (8 * i)).take 8 :=
    fun i hi => byteBits_packByte _ (by simp; omega)
  refine Eq.trans ?_ (take_drop_seven bs h)
  rw [← e 0 (by omega), ← e 1 (by omega), ← e 2 (by omega), ← e 3 (by omega), ← e 4 (by omega), ← e 5 (by omega),
    ← e 6 (by omega)]
  rfl

/-- The frame the wire order of a frame spells is that frame. -/
theorem packFrame_frameBitList (f : Frame) : packFrame (frameBitList f) = f := by
  apply frame_ext
  intro i
  rw [memRead_packFrame]
  have h : packAt (frameBitList f) i.val = packByte (byteBits f[i]) := by fin_cases i <;> rfl
  rw [h, packByte_byteBits]; rfl

/-- Bit `n` of the wire order is bit `n mod 8` of byte `n div 8` (30_encoding.md R63). -/
theorem frameBitList_getElem (f : Frame) (n : Nat) (h : n < 7 * 8) (hb : n < (frameBitList f).length) :
    (frameBitList f)[n] = (f[n / 8]'(Nat.div_lt_of_lt_mul (by omega))).getLsbD (n % 8) := by
  have key : ∀ k : Fin 56, (frameBitList f)[k.val]'(by simp) =
      (f[k.val / 8]'(Nat.div_lt_of_lt_mul (by omega))).getLsbD (k.val % 8) := by
    intro k; fin_cases k <;> rfl
  exact key ⟨n, h⟩

theorem pulseBit_eq_some {d : Nat} {x : Bool} : pulseBit d = some x ↔ Carries x d := by
  have h0 := @classify_receiving_bit0 d
  have h1 := @classify_receiving_bit1 d
  unfold pulseBit
  cases hc : classify .receiving d <;> rw [hc] at h0 h1 <;> cases x <;> simp [Carries] at * <;> omega

/-- A list of durations spells a list of bits when each duration carries its bit. -/
theorem pulseBits_eq_some {ds : List Nat} {bs : List Bool} :
    pulseBits ds = some bs ↔ List.Forall₂ (fun d x => Carries x d) ds bs := by
  induction ds generalizing bs with
  | nil => cases bs <;> simp [pulseBits]
  | cons d ds ih =>
    cases bs with
    | nil => simp only [pulseBits]; split <;> simp
    | cons x bs =>
      rw [List.forall₂_cons, ← pulseBit_eq_some, ← ih]
      simp only [pulseBits]
      split <;> simp_all

/-- A pulse that carries a bit is short. -/
theorem Carries.le {x : Bool} {d : Nat} (h : Carries x d) : d ≤ 2000 := by
  cases x <;> simp [Carries] at h <;> omega

end Sys2Proof.Machine
end

