-- ==== Sys2Proof/Laws/PerInstr.lean ====
section
/-! SUPPORT. Families of statements made per instruction. `RowRoundTrip`: a well-formed row that the control state
selects is what its own stimulus decodes to (30_encoding.md R68). -/

namespace Sys2Proof.Laws

/-- The row decodes from its own stimulus wherever it is well-formed and selected. -/
def RowRoundTrip.Statement (i : Instr) : Prop :=
  ∀ c : Select, i.wf c.tsMod = true → i.selected c = true → decode c (encode i) = .ok i

namespace RowRoundTrip

theorem reset : Statement .reset := fun _ _ _ => rfl

theorem begin : Statement .begin := fun _ _ _ => rfl

theorem setcfg (u : TempUnit) (d : Bool) : Statement (.setcfg u d) := fun _ _ _ => rfl

theorem edgeFall (now : Nat) : Statement (.edgeFall now) := by
  intro c h _
  simp only [Instr.wf, decide_eq_true_eq] at h
  simp [decode, encode, h]

theorem edgeRiseSpurious (now : Nat) : Statement (.edgeRiseSpurious now) := by
  intro c h hs
  simp only [Instr.wf, decide_eq_true_eq] at h
  simp only [Instr.selected, Bool.not_eq_true'] at hs
  simp [decode, encode, h, hs]

theorem edgeRise (now : Nat) : Statement (.edgeRise now) := by
  intro c h hs
  simp only [Instr.wf, decide_eq_true_eq] at h
  simp only [Instr.selected] at hs
  simp [decode, encode, h, hs]

theorem pStart (d : Nat) : Statement (.pStart d) := by
  intro c h hs
  simp only [Instr.wf, Instr.selected, Bool.and_eq_true, decide_eq_true_eq] at h hs
  simp [decode, encode, decodePulse, h, hs]

theorem pIdleIgnore (d : Nat) : Statement (.pIdleIgnore d) := by
  intro c h hs
  simp only [Instr.wf, Instr.selected, Bool.and_eq_true, decide_eq_true_eq] at h hs
  simp [decode, encode, decodePulse, h, hs]

theorem pBit0 (d : Nat) : Statement (.pBit0 d) := by
  intro c h hs
  simp only [Instr.wf, Instr.selected, Bool.and_eq_true, decide_eq_true_eq] at h hs
  simp [decode, encode, decodePulse, h, hs]

theorem pBit1 (d : Nat) : Statement (.pBit1 d) := by
  intro c h hs
  simp only [Instr.wf, Instr.selected, Bool.and_eq_true, decide_eq_true_eq] at h hs
  simp [decode, encode, decodePulse, h, hs]

theorem pAbort (d : Nat) : Statement (.pAbort d) := by
  intro c h hs
  simp only [Instr.wf, Instr.selected, Bool.and_eq_true, decide_eq_true_eq] at h hs
  simp [decode, encode, decodePulse, h, hs]

theorem avail : Statement .avail := fun _ _ _ => rfl

theorem take : Statement .take := fun _ _ _ => rfl

theorem validate (f : Frame) : Statement (.validate f) := fun _ _ _ => rfl

theorem temp (f : Frame) : Statement (.temp f) := fun _ _ _ => rfl

theorem tempX (f : Frame) : Statement (.tempX f) := by
  intro c h _
  simp only [Instr.wf, Bool.not_eq_true'] at h
  simp [decode, encode, decodeBranch, h]

theorem tempY (f : Frame) : Statement (.tempY f) := by
  intro c h _
  simp only [Instr.wf] at h
  simp [decode, encode, decodeBranch, h]

theorem frame (ps : List LowPulse) : Statement (.frame ps) := by
  intro c h _
  simp only [Instr.wf] at h
  simp [decode, encode, h]

end RowRoundTrip

end Sys2Proof.Laws
end

