-- ==== Sys2Proof/Tests/Slice0.lean ====
section
/-! SUPPORT. The model's own tests. Expected results come from the spec's tables and vectors (30_encoding.md R61 to R63,
95_test_vectors.md), named in each comment. The witnesses at the end show, for each statement with hypotheses, values
that meet them. -/

namespace Sys2Proof.Tests

open Machine

/-! ### A small machine with concrete parameters -/

/-- The legal small modulus of vector V-E13; the free values at numbers of the test's own. -/
def params : Params where
  tsMod      := 16384
  fReset     := #v[0xF0, 0xF1, 0xF2, 0xF3, 0xF4, 0xF5, 0xF6]
  wReset     := #v[0x70, 0x71, 0x72, 0x73, 0x74, 0x75, 0x76]
  t0Reset    := 77
  unitReset  := .celsius
  debugReset := false
  tempEps    := 1 / 1000

/-- The default modulus. -/
def params32 : Params := { params with tsMod := 4294967296 }

/-- A machine with nothing issued and nothing delivered. -/
def mk (p : Params) (b : Block) : State := ⟨p, b, [], [], [], []⟩

/-- IDLE, edges delivered, nothing pending. -/
def idle : Block := { Block.powerOn params with en := true }

/-- RECEIVING at byte `bi`, bit `bc`, with accumulator `acc`, edges delivered, a falling edge at 0 pending. -/
def receiving (bi : Fin 7) (bc : Fin 8) (acc : Byte) : Block :=
  { idle with st := .receiving, pend := true, t0 := 0, bi := bi, bc := bc, acc := acc }

/-- The spec's frame A. -/
def frameA : Frame := #v[0x01, 0x90, 0x00, 0x50, 0x00, 0x00, 0xE1]

/-- The spec's frame B. -/
def frameB : Frame := #v[0x03, 0x45, 0x00, 0xDE, 0xAA, 0x55, 0x25]

/-- A frame with the given raw fields and zeros after them. -/
def raws (b0 b1 b2 b3 : Byte) : Frame := #v[b0, b1, b2, b3, 0, 0, 0]

/-- The machine after an operation, if there is one. -/
def after (i : Instr) (s : State) : Option State :=
  match exec i s with
  | .next t => some t
  | .fault _ => none
  | .refused _ => none

/-- The block after an operation, if there is one. -/
def blockAfter (i : Instr) (s : State) : Option Block := (after i s).map State.block

/-- `st`, `pend`, `t0`, `bi`, `bc`, `acc` of a block, in the order the vectors write them. -/
structure Regs where
  st   : DecoderState
  pend : Bool
  t0   : Nat
  bi   : Nat
  bc   : Nat
  acc  : Byte
deriving DecidableEq, Repr

def regs (b : Block) : Regs := ⟨b.st, b.pend, b.t0, b.bi.val, b.bc.val, b.acc⟩

/-- The registers with W, F, `rdy` and what was noted. -/
structure View where
  regs  : Regs
  W     : Frame
  F     : Frame
  rdy   : Bool
  notes : List ErrorClass
deriving DecidableEq, Repr

def view (s : State) : View := ⟨regs s.block, s.block.W, s.block.F, s.block.rdy, s.notes⟩

/-- The trace line of a text. -/
def line (s : String) : List Byte := s.toList.map (fun c => BitVec.ofNat 8 c.toNat)

/-! ### WellFormed: one ill-formed term for each check -/

theorem test_wf_edgeFall : Instr.wf 16384 (.edgeFall 16384) = false ∧ Instr.wf 16384 (.edgeFall 16383) = true := by
  decide
theorem test_wf_edgeRise : Instr.wf 16384 (.edgeRise 16384) = false ∧ Instr.wf 16384 (.edgeRise 16383) = true := by
  decide
theorem test_wf_spurious :
    Instr.wf 16384 (.edgeRiseSpurious 16384) = false ∧ Instr.wf 16384 (.edgeRiseSpurious 0) = true := by
  decide
/-- R62: 6999 and 10001 are no start markers. -/
theorem test_wf_pStart :
    Instr.wf 16384 (.pStart 6999) = false ∧ Instr.wf 16384 (.pStart 10001) = false ∧
      Instr.wf 9000 (.pStart 9500) = false ∧ Instr.wf 16384 (.pStart 7000) = true := by
  decide
theorem test_wf_pIdleIgnore :
    Instr.wf 16384 (.pIdleIgnore 7000) = false ∧ Instr.wf 16384 (.pIdleIgnore 16384) = false ∧
      Instr.wf 16384 (.pIdleIgnore 10001) = true := by
  decide
theorem test_wf_pBit0 :
    Instr.wf 16384 (.pBit0 900) = false ∧ Instr.wf 500 (.pBit0 500) = false ∧ Instr.wf 16384 (.pBit0 899) = true := by
  decide
theorem test_wf_pBit1 :
    Instr.wf 16384 (.pBit1 1199) = false ∧ Instr.wf 16384 (.pBit1 2001) = false ∧
      Instr.wf 1300 (.pBit1 1300) = false ∧ Instr.wf 16384 (.pBit1 1200) = true := by
  decide
theorem test_wf_pAbort :
    Instr.wf 16384 (.pAbort 899) = false ∧ Instr.wf 16384 (.pAbort 1200) = false ∧
      Instr.wf 16384 (.pAbort 16384) = false ∧ Instr.wf 16384 (.pAbort 1199) = true := by
  decide
/-- V-S5: 836/221 is the X-branch, 837/221 the Y-branch. -/
theorem test_wf_tempX :
    Instr.wf 16384 (.tempX (raws 0x03 0x45 0x00 0xDD)) = false ∧
      Instr.wf 16384 (.tempX (raws 0x03 0x44 0x00 0xDD)) = true := by
  decide
theorem test_wf_tempY :
    Instr.wf 16384 (.tempY (raws 0x03 0x44 0x00 0xDD)) = false ∧
      Instr.wf 16384 (.tempY (raws 0x03 0x44 0x00 0xDE)) = true := by
  decide
/-- A transmission with a timestamp out of range, with no start marker, with a pulse in the dead zone, with a pulse
missing. -/
theorem test_wf_frame :
    frameOk 16384 (⟨16384, 8000⟩ :: List.replicate 56 ⟨0, 600⟩) = false ∧
      frameOk 16384 (⟨0, 6999⟩ :: List.replicate 56 ⟨0, 600⟩) = false ∧
      frameOk 16384 (⟨0, 8000⟩ :: ⟨0, 1000⟩ :: List.replicate 55 ⟨0, 600⟩) = false ∧
      frameOk 16384 (⟨0, 8000⟩ :: List.replicate 55 ⟨0, 600⟩) = false ∧
      frameOk 16384 (⟨0, 8000⟩ :: List.replicate 56 ⟨0, 600⟩) = true := by
  decide +kernel

/-! ### Decoding: the duration table (30_encoding.md R61, R62), column IDLE and column RECEIVING -/

theorem test_decode_idle :
    [0, 899, 900, 1199, 1200, 2000, 2001, 6999, 10001].map (decodePulse .idle) =
        [0, 899, 900, 1199, 1200, 2000, 2001, 6999, 10001].map Instr.pIdleIgnore ∧
      [7000, 8000, 10000].map (decodePulse .idle) = [7000, 8000, 10000].map Instr.pStart := by
  decide
theorem test_decode_receiving_bits :
    [0, 1, 600, 899].map (decodePulse .receiving) = [0, 1, 600, 899].map Instr.pBit0 ∧
      [1200, 1500, 2000].map (decodePulse .receiving) = [1200, 1500, 2000].map Instr.pBit1 := by
  decide
theorem test_decode_receiving_abort :
    [900, 1000, 1199, 2001, 5000, 7000, 8000, 10000, 10001].map (decodePulse .receiving) =
      [900, 1000, 1199, 2001, 5000, 7000, 8000, 10000, 10001].map Instr.pAbort := by
  decide
/-- R68, column "selected by": a rising edge is measured only with `CFG.EN = 1` and `pend = 1`; timestamps are below
`TS_MOD`. -/
theorem test_decode_edges :
    decode ⟨16384, .idle, true, true⟩ (.event (.rise 9)) = .ok (.edgeRise 9) ∧
      decode ⟨16384, .idle, true, false⟩ (.event (.rise 9)) = .ok (.edgeRiseSpurious 9) ∧
      decode ⟨16384, .idle, false, true⟩ (.event (.rise 9)) = .ok (.edgeRiseSpurious 9) ∧
      decode ⟨16384, .idle, true, true⟩ (.event (.fall 16383)) = .ok (.edgeFall 16383) ∧
      decode ⟨16384, .idle, true, true⟩ (.event (.rise 16384)) = .error (.timestampOutOfRange 16384) ∧
      decode ⟨16384, .idle, true, true⟩ (.pulse 16384) = .error (.durationOutOfRange 16384) := by
  decide
/-- V-S5: the guard, at its corner. -/
theorem test_decode_branch :
    decodeBranch (raws 0x03 0x44 0x00 0xDD) = .tempX (raws 0x03 0x44 0x00 0xDD) ∧
      decodeBranch (raws 0x03 0x45 0x00 0xDD) = .tempY (raws 0x03 0x45 0x00 0xDD) ∧
      decodeBranch (raws 0x00 0x00 0x00 0xDE) = .tempY (raws 0x00 0x00 0x00 0xDE) := by
  decide

/-! ### Decoding: the lines of the trace notation, written out (30_encoding.md R72) -/

theorem test_line_reset : Trace.readLine 16384 0 (line "RESET") = .ok .reset := by decide
theorem test_line_begin : Trace.readLine 16384 0 (line "BEGIN") = .ok .begin := by decide
theorem test_line_setcfg :
    Trace.readLine 16384 0 (line "SETCFG F 1 ; unit, debug") = .ok (.setcfg .fahrenheit true) := by
  decide
theorem test_line_fall : Trace.readLine 16384 0 (line "F 1000") = .ok (.fall 1000) := by decide
theorem test_line_rise : Trace.readLine 16384 0 (line "R 9000   ; start marker") = .ok (.rise 9000) := by decide
theorem test_line_avail : Trace.readLine 16384 0 (line "AVAIL            -> 1") = .ok .avail := by decide
theorem test_line_take : Trace.readLine 16384 0 (line "TAKE -> 01 90 00 50 00 00 E1") = .ok .take := by decide
theorem test_line_validate :
    Trace.readLine 16384 0 (line "VALIDATE 03 45 00 DE AA 55 25 -> 1") = .ok (.validate frameB) := by
  decide +kernel
theorem test_line_temp :
    Trace.readLine 16384 0 (line "TEMP 01 90 00 50 00 00 E1 -> 190.98832") = .ok (.temp frameA) := by
  decide +kernel
/-- Program P1: the FRAME line of A from cursor 1000 begins F 1000 R 9000, F 9500 R 11000, F 11500 R 12100, ends with
F 77200 R 78700, and leaves the cursor at 79200. -/
theorem test_line_frame :
    (match Trace.expandLine 4294967296 1000 (line "FRAME 01 90 00 50 00 00 E1") with
      | .ok ([.frame ps], t) => some (ps.length, ps.take 3, ps.getLast?, t)
      | .ok _ => none
      | .error _ => none) =
      some (57, [⟨1000, 8000⟩, ⟨9500, 1500⟩, ⟨11500, 600⟩], some ⟨77200, 1500⟩, 79200) := by
  decide +kernel
/-- R73: FRAMECK appends the checksum. -/
theorem test_line_frameck :
    Trace.readLine 16384 0 (line "FRAMECK 01 90 00 50 00 00") = .ok (.frame (Trace.frame 16384 0 frameA)) := by
  decide +kernel
/-- Program P2: `START` from 0, then `B0`, `B1`; the pseudo-operations are edges. -/
theorem test_expand_pseudo :
    Trace.expand 16384 5 [line "AT 0", line "START", line "B0", line "B1", line "LOW 1000"] =
      .ok [.fall 0, .rise 8000, .fall 8500, .rise 9100, .fall 9600, .rise 11100, .fall 11600, .rise 12600] := by
  decide +kernel
/-- Program P4: `BYTE 03` from cursor 87700, least significant bit first. -/
theorem test_expand_byte :
    Trace.lows 4294967296 87700 (Trace.byteDurations 0x03) =
      ([⟨87700, 1500⟩, ⟨89700, 1500⟩, ⟨91700, 600⟩, ⟨92800, 600⟩, ⟨93900, 600⟩, ⟨95000, 600⟩, ⟨96100, 600⟩,
        ⟨97200, 600⟩], 98300) := by
  decide +kernel
/-- Lines that are no operation are rejected by name. -/
theorem test_line_errors :
    Trace.readLine 16384 0 (line "  ; only a comment") = .error .emptyLine ∧
      Trace.readLine 16384 0 (line "JUMP 7") = .error .unknownOperation ∧
      Trace.readLine 16384 0 (line "F") = .error .badOperands ∧
      Trace.readLine 16384 0 (line "VALIDATE 01 90") = .error .badOperands ∧
      Trace.expandLine 16384 0 (line "AT 16384") = .error (.timestampOutOfRange 16384) := by
  decide +kernel
/-- The wire order of A and B as 95_test_vectors.md writes it. -/
theorem test_wire_order :
    frameBitList frameA = ("10000000000010010000000000001010000000000000000010000111".toList.map (· == '1')) ∧
      frameBitList frameB = ("11000000101000100000000001111011010101011010101010100100".toList.map (· == '1')) := by
  decide +kernel
/-- The words of the host's interface: `BEGIN`, `SETCFG C 0`, `AVAIL`, and a word that spells nothing. -/
theorem test_word :
    decodeTableWord 40 0x4E49474542 = some .begin ∧
      decodeTableWord 80 0x30204320474643544553 = some (.setcfg .celsius false) ∧
      decodeTableWord 40 0x4C49415641 = some .avail ∧ decodeTableWord 56 0 = none := by
  decide
/-- A word placed where the machine takes its next operation is performed by the next step. -/
theorem test_withFetchWord :
    step ((mk params (Block.powerOn params)).withFetchWord 40 0x4E49474542) =
      .next (mk params { Block.powerOn params with en := true }) := by
  rfl

/-! ### Control operations (95_test_vectors.md section 2.7) -/

/-- V-R1. -/
theorem test_reset :
    blockAfter .reset (mk params { receiving 3 5 0x11 with rdy := true, debug := true, F := frameA }) =
      some (Block.powerOn params) := by
  decide
/-- V-R2 and V-R4: BEGIN does not reset the decoder. -/
theorem test_begin :
    blockAfter .begin (mk params (Block.powerOn params)) = some idle ∧
      blockAfter .begin (mk params (receiving 2 5 0x13)) = some (receiving 2 5 0x13) := by
  decide
/-- V-R3. -/
theorem test_setcfg :
    blockAfter (.setcfg .fahrenheit true) (mk params idle) = some { idle with unit := .fahrenheit, debug := true } := by
  decide

/-! ### Edges (section 2.2) -/

/-- V-E3; V-E1, edges not delivered. -/
theorem test_edgeFall :
    blockAfter (.edgeFall 1000) (mk params idle) = some { idle with t0 := 1000, pend := true } ∧
      blockAfter (.edgeFall 100) (mk params (Block.powerOn params)) = some (Block.powerOn params) := by
  decide
/-- V-E15: a falling edge touches nothing but `pend` and `t0`. -/
theorem test_edgeFall_receiving :
    blockAfter (.edgeFall 70000) (mk params32 { receiving 3 5 0x11 with pend := false, rdy := true }) =
      some { receiving 3 5 0x11 with t0 := 70000, rdy := true } := by
  decide
/-- V-E2, V-E5: a rising edge with nothing pending. -/
theorem test_spurious :
    after (.edgeRiseSpurious 500) (mk params idle) = some { mk params idle with notes := [.spuriousEdge] } ∧
      after (.edgeRise 500) (mk params idle) = some { mk params idle with notes := [.spuriousEdge] } := by
  decide +kernel
/-- V-E1: a rising edge not delivered notes nothing. -/
theorem test_spurious_disabled :
    after (.edgeRiseSpurious 8100) (mk params (Block.powerOn params)) = some (mk params (Block.powerOn params)) := by
  decide +kernel
/-- V-E4 and V-E13: 8000 µs, also across the wrap of a modulus of 16384. -/
theorem test_edgeRise_start :
    (blockAfter (.edgeRise 9000) (mk params { idle with t0 := 1000, pend := true })).map regs =
        some ⟨.receiving, false, 1000, 0, 0, 0⟩ ∧
      (blockAfter (.edgeRise 7616) (mk params { idle with t0 := 16000, pend := true })).map regs =
        some ⟨.receiving, false, 16000, 0, 0, 0⟩ := by
  decide
/-- V-E9 (the wrap at 2^32), V-E8 (6100 µs in IDLE). -/
theorem test_edgeRise_wrap :
    (blockAfter (.edgeRise 4000) (mk params32 { idle with t0 := 4294963296, pend := true })).map regs =
        some ⟨.receiving, false, 4294963296, 0, 0, 0⟩ ∧
      (blockAfter (.edgeRise 10100) (mk params32 { idle with t0 := 4000, pend := true })).map regs =
        some ⟨.idle, false, 4000, 0, 0, 0⟩ := by
  decide

/-! ### Pulses (sections 2.1 and 2.3) -/

/-- V-D8: a start is not gated by `rdy`. -/
theorem test_pStart :
    (blockAfter (.pStart 8000) (mk params { idle with rdy := true })).map (fun b => (regs b, b.rdy)) =
      some (⟨.receiving, false, 77, 0, 0, 0⟩, true) := by
  decide
theorem test_pIdleIgnore : blockAfter (.pIdleIgnore 10001) (mk params idle) = some idle := by decide
/-- Table 2.1, row 899: from `2 3 05` to `2 4 05`; V-D2. -/
theorem test_pBit0 :
    (blockAfter (.pBit0 899) (mk params (receiving 2 3 0x05))).map regs = some ⟨.receiving, true, 0, 2, 4, 0x05⟩ ∧
      (blockAfter (.pBit0 600) (mk params (receiving 0 7 0x7F))).map (fun b => (regs b, b.W[0])) =
        some (⟨.receiving, true, 0, 1, 0, 0⟩, 0x7F) := by
  decide
/-- Table 2.1, row 1200: from `2 3 05` to `2 4 0D`; V-D3. -/
theorem test_pBit1 :
    (blockAfter (.pBit1 1200) (mk params (receiving 2 3 0x05))).map regs = some ⟨.receiving, true, 0, 2, 4, 0x0D⟩ ∧
      (blockAfter (.pBit1 2000) (mk params (receiving 0 7 0x00))).map (fun b => (regs b, b.W[0])) =
        some (⟨.receiving, true, 0, 1, 0, 0⟩, 0x80) := by
  decide
/-- V-D4 and V-D5: the 56th bit with the slot free and with the slot full. -/
theorem test_frame_done :
    (after (.pBit1 1500) (mk params { receiving 6 7 0x61 with W := frameA.set 6 0 })).map view =
        some ⟨⟨.idle, true, 0, 0, 0, 0⟩, frameA, frameA, true, []⟩ ∧
      (after (.pBit1 1500) (mk params { receiving 6 7 0x61 with W := frameA.set 6 0, F := frameB, rdy := true })).map
        view = some ⟨⟨.idle, true, 0, 0, 0, 0⟩, frameA, frameB, true, [.overrun]⟩ := by
  decide +kernel
/-- V-D6: the dead zone at the last bit. -/
theorem test_pAbort :
    (after (.pAbort 1000) (mk params { receiving 6 7 0x61 with W := frameA.set 6 0 })).map view =
      some ⟨⟨.idle, true, 0, 0, 0, 0⟩, frameA.set 6 0, params.fReset, false, [.badPulse 1000]⟩ := by
  decide +kernel
/-- V-R5: the record of the last bit stands before the record of the frame. -/
theorem test_trace_order :
    (after (.pBit1 1500) (mk params { receiving 6 7 0x61 with debug := true })).map State.trace =
      some [.bit 1500 true, .frameComplete] := by
  decide +kernel
/-- An internal row out of its state is refused by name. -/
theorem test_not_selected :
    exec (.pStart 8000) (mk params (receiving 0 0 0)) = .refused .notSelected ∧
      exec (.pBit0 1000) (mk params (receiving 0 0 0)) = .refused .notSelected := by
  exact ⟨rfl, rfl⟩

/-! ### Consumer operations (section 2.4) -/

/-- V-C1 and V-C3. -/
theorem test_avail :
    (after .avail (mk params (Block.powerOn params))).map State.results = some [.bit false] ∧
      (after .avail (mk params { receiving 3 0 0 with F := frameA, rdy := true })).map State.results =
        some [.bit true] := by
  decide +kernel
/-- V-C4. -/
theorem test_take :
    after .take (mk params { receiving 3 0 0 with F := frameA, rdy := true }) =
      some { mk params { receiving 3 0 0 with F := frameA } with results := [.bytes frameA] } := by
  decide +kernel

/-! ### The frame interpreter (sections 2.5 and 2.6) -/

/-- V-V2, V-V3, V-V5, V-V8, V-V13. -/
theorem test_validate :
    checksumValid #v[0xFF, 0xFF, 0xFF, 0xFF, 0xFF, 0xFF, 0xFA] = true ∧ checksumValid frameA = true ∧
      checksumValid (frameA.set 6 0x61) = false ∧ checksumValid (frameA.set 4 0x01) = false ∧
      checksumValid frameB = true := by
  decide
theorem test_validate_notes :
    (after (.validate (frameA.set 6 0xE0)) (mk params idle)).map (fun s => (s.block, s.results, s.notes)) =
      some (idle, [.bit false], [.checksumMismatch]) := by
  decide +kernel
/-- V-S6 as 90_conflicts.md C3 corrects it, 190.98832 and 375.778976; rows 0/1024, 65535/65535 and 0/1023. -/
theorem test_temp :
    temperatureE12 .celsius frameA = 190988320000000 ∧ temperatureE12 .fahrenheit frameA = 375778976000000 ∧
      temperatureE12 .celsius (raws 0x00 0x00 0x04 0x00) = -37838540800 ∧
      temperatureE12 .celsius (raws 0xFF 0xFF 0xFF 0xFF) = -61467689226877575000 ∧
      temperatureE12 .fahrenheit (raws 0x00 0x00 0x03 0xFF) = 32367034145480 := by
  decide
theorem test_temp_exec :
    after (.temp frameA) (mk params idle) =
        some { mk params idle with results := [.temperature (190988320000000 / 10 ^ 12)] } ∧
      after (.temp frameA) (mk params { idle with unit := .fahrenheit }) =
        some { mk params { idle with unit := .fahrenheit } with
          results := [.temperature (375778976000000 / 10 ^ 12)] } := by
  decide +kernel
/-- Rows 836/221 and 837/221. -/
theorem test_tempX :
    after (.tempX (raws 0x03 0x44 0x00 0xDD)) (mk params idle) =
      some { mk params idle with results := [.temperature (114456676827520 / 10 ^ 12)] } := by
  decide +kernel
theorem test_tempY :
    after (.tempY (raws 0x03 0x45 0x00 0xDD)) (mk params idle) =
      some { mk params idle with results := [.temperature (115138658263800 / 10 ^ 12)] } := by
  decide +kernel
/-- R130: with `TEMP_EPS = 1/1000` a realisation may return 190.98832 plus or minus 0.001, and nothing farther; in
Fahrenheit the bound is on the Fahrenheit value 375.778976. -/
theorem test_temp_realised :
    TempRealises params .celsius frameA (190989320000000 / 10 ^ 12) ∧
      TempRealises params .celsius frameA (190987320000000 / 10 ^ 12) ∧
      ¬ TempRealises params .celsius frameA (190989320000001 / 10 ^ 12) ∧
      ¬ TempRealises params .celsius frameA (190987319999999 / 10 ^ 12) ∧
      TempRealises params .fahrenheit frameA (375779976000000 / 10 ^ 12) ∧
      ¬ TempRealises params .fahrenheit frameA (375779976000001 / 10 ^ 12) := by
  decide +kernel
/-- Log entry 29: a branch row performed on its own delivers its Celsius value in either unit. -/
theorem test_tempX_unconverted :
    (after (.tempX (raws 0x03 0x44 0x00 0xDD)) (mk params { idle with unit := .fahrenheit })).map State.results =
      some [.temperature (114456676827520 / 10 ^ 12)] := by
  decide +kernel

/-! ### One transmission (programs P1 and P3) -/

/-- P1: the checkpoint after `R 78700`. -/
theorem test_frame :
    (after (.frame (Trace.frame 4294967296 1000 frameA)) (mk params32 idle)).map view =
      some ⟨⟨.idle, false, 77200, 0, 0, 0⟩, frameA, frameA, true, []⟩ := by
  decide +kernel
/-- P3: the second frame is dropped, its bytes stay in W. -/
theorem test_frame_overrun :
    (after (.frame (Trace.frame 4294967296 79200 frameB))
        (mk params32 { idle with W := frameA, F := frameA, rdy := true })).map view =
      some ⟨⟨.idle, false, 168000, 0, 0, 0⟩, frameB, frameA, true, [.overrun]⟩ := by
  decide +kernel

/-! ### Witnesses: for each statement with hypotheses, values that meet them all, at the boundaries of each clause -/

/-- A machine with the events `es` to come. -/
def coming (es : List Event) (b : Block) : State := { mk params b with input := es }

/-- Frame A as 57 nominal pulses, and its durations. -/
def pulsesA : List LowPulse := Trace.frame 4294967296 1000 frameA

/-- Each of the 56 nominal durations carries its bit. -/
theorem pulsesA_carry : ∀ k : Fin 56,
    Carries ((frameA[k.val / 8]'(Nat.div_lt_of_lt_mul k.isLt)).getLsbD (k.val % 8))
      (((frameBitList frameA).map Trace.nominalBit)[k.val]'k.isLt) := by
  unfold Carries; decide +kernel

theorem pulsesA_transmit : TransmitsOnLine 4294967296 frameA pulsesA :=
  ⟨⟨8000, (frameBitList frameA).map Trace.nominalBit, by decide +kernel, by decide, by decide, by decide,
    fun n hn _ => pulsesA_carry ⟨n, hn⟩⟩, by decide +kernel⟩

theorem test_hyp_FallingEdgeRecordsTimestamp :
    (mk params idle).block.en = true ∧ (mk params (Block.powerOn params)).block.en = false := by decide
theorem test_hyp_SecondFallingEdgeReplacesFirst :
    let s := mk params (receiving 0 0 0)
    s.block.en = true ∧ s.block.pend = true ∧ 8000 < s.params.tsMod ∧
      (16000 + 8000) % s.params.tsMod = 7616 % s.params.tsMod := by decide
theorem test_hyp_SpuriousRisingEdgeIgnored :
    16383 < (mk params idle).params.tsMod ∧
      (Instr.edgeRiseSpurious 16383 = .edgeRise 16383 ∨ Instr.edgeRiseSpurious 16383 = .edgeRiseSpurious 16383) ∧
      (mk params idle).block.en = true ∧ (mk params idle).block.pend = false ∧
      (mk params { receiving 0 0 0 with en := false }).block.en = false := by decide
theorem test_hyp_MeasuredRiseRunsSelectedPulse :
    let s := mk params { idle with t0 := 16000, pend := true }
    s.block.en = true ∧ s.block.pend = true ∧ 8000 < s.params.tsMod ∧
      (s.block.t0 + 8000) % s.params.tsMod = 7616 % s.params.tsMod := by decide
theorem test_hyp_MeasuredRiseCompletes :
    (mk params (receiving 6 7 0)).block.en = true ∧ (mk params (receiving 6 7 0)).block.pend = true := by decide
theorem test_hyp_LowTimeMeasuredAsResidue :
    0 < (mk params idle).params.tsMod ∧ (mk params idle).block.en = true := by decide
theorem test_hyp_DurationTable :
    let c : Select := ⟨16384, .idle, true, true⟩
    let c' : Select := ⟨16384, .receiving, true, true⟩
    c.st = .idle ∧ (∀ d ∈ [7000, 10000], d < c.tsMod ∧ 7000 ≤ d ∧ d ≤ 10000) ∧
      (∀ d ∈ [0, 6999, 10001, 16383], d < c.tsMod ∧ (d < 7000 ∨ 10000 < d)) ∧
      c'.st = .receiving ∧ (∀ d ∈ [0, 899], d < c'.tsMod ∧ d < 900) ∧
      (∀ d ∈ [1200, 2000], d < c'.tsMod ∧ 1200 ≤ d ∧ d ≤ 2000) ∧
      (∀ d ∈ [900, 1199, 2001, 16383], d < c'.tsMod ∧ ((900 ≤ d ∧ d ≤ 1199) ∨ 2001 ≤ d)) := by decide
theorem test_hyp_StartMarkerEntersReceiving :
    (mk params idle).block.st = .idle ∧
      ∀ d ∈ [7000, 10000], 7000 ≤ d ∧ d ≤ 10000 ∧ d < (mk params idle).params.tsMod := by decide
theorem test_hyp_IdlePulseIgnored :
    (mk params idle).block.st = .idle ∧
      ∀ d ∈ [0, 6999, 10001], (d < 7000 ∨ 10000 < d) ∧ d < (mk params idle).params.tsMod := by decide
theorem test_hyp_BitPulseShiftsBitIn :
    (mk params (receiving 6 6 0)).block.st = .receiving ∧ Carries false 0 ∧ Carries false 899 ∧ Carries true 1200 ∧
      Carries true 2000 ∧ 2000 < (mk params (receiving 6 6 0)).params.tsMod ∧
      (mk params (receiving 6 6 0)).block.bc.val + 1 < 8 := by
  unfold Carries; decide
theorem test_hyp_EighthBitStoresByte :
    let s := mk params (receiving 5 7 0x7F)
    s.block.st = .receiving ∧ Carries true 2000 ∧ Carries false 899 ∧ 2000 < s.params.tsMod ∧ s.block.bc = 7 ∧
      s.block.bi.val < 6 := by
  unfold Carries; decide
theorem test_hyp_LastBitPublishesFrame :
    let s := mk params (receiving 6 7 0x61)
    s.block.st = .receiving ∧ Carries true 1500 ∧ 1500 < s.params.tsMod ∧ s.block.bc = 7 ∧ s.block.bi = 6 ∧
      s.block.rdy = false := by
  unfold Carries; decide
theorem test_hyp_LastBitOverrunDropsFrame :
    let s := mk params { receiving 6 7 0x61 with rdy := true }
    s.block.st = .receiving ∧ Carries false 600 ∧ 600 < s.params.tsMod ∧ s.block.bc = 7 ∧ s.block.bi = 6 ∧
      s.block.rdy = true := by
  unfold Carries; decide
theorem test_hyp_AbortDiscardsPartialFrame :
    (mk params (receiving 4 2 1)).block.st = .receiving ∧
      ∀ d ∈ [900, 1199, 2001, 16383], ((900 ≤ d ∧ d ≤ 1199) ∨ 2001 ≤ d) ∧
        d < (mk params (receiving 4 2 1)).params.tsMod := by decide
theorem test_hyp_DeadZoneReturnsToIdle :
    let s := mk params (receiving 0 3 2)
    s.block.en = true ∧ s.block.pend = true ∧ s.block.st = .receiving ∧
      ∀ d ∈ [900, 1199], 900 ≤ d ∧ d ≤ 1199 ∧ d < s.params.tsMod ∧
        (s.block.t0 + d) % s.params.tsMod = d % s.params.tsMod := by decide
theorem test_hyp_UnselectedRowRefused :
    let s := mk params (receiving 0 0 0)
    let s' := mk params idle
    ¬ (s.block.st = .idle ∧ 7000 ≤ 8000 ∧ 8000 ≤ 10000 ∧ 8000 < s.params.tsMod) ∧
      ¬ (s'.block.st = .idle ∧ (7000 < 7000 ∨ 10000 < 7000) ∧ 7000 < s'.params.tsMod) ∧
      ¬ (s.block.st = .receiving ∧ 900 < 900 ∧ 900 < s.params.tsMod) ∧
      ¬ (s.block.st = .receiving ∧ 1200 ≤ 1199 ∧ 1199 ≤ 2000 ∧ 1199 < s.params.tsMod) ∧
      ¬ (s.block.st = .receiving ∧ ((900 ≤ 1200 ∧ 1200 ≤ 1199) ∨ 2001 ≤ 1200) ∧ 1200 < s.params.tsMod) ∧
      ¬ ((s.block.en = false ∨ s.block.pend = false) ∧ 5 < s.params.tsMod) ∧
      (836 < rawX (raws 0x03 0x45 0 0) ∨ 221 < rawY (raws 0x03 0x45 0 0)) ∧
      ¬ (836 < rawX (raws 0x03 0x44 0 0xDD) ∨ 221 < rawY (raws 0x03 0x44 0 0xDD)) := by decide
theorem test_hyp_ReceptionFollowsWireOrder :
    classify idle.st 7000 = .startMarker ∧ (receiving 0 0 0).HasReceived [] ∧ Carries true 1500 ∧
      ({ receiving 6 6 0x21 with W := frameA }.HasReceived ((frameBitList frameA).take 54) ∧
        ((frameBitList frameA).take 54).length < 55) ∧
      ({ receiving 6 7 0x61 with W := frameA }.HasReceived ((frameBitList frameA).take 55) ∧
        ((frameBitList frameA).take 55).length = 55) := by
  unfold Block.HasReceived Carries; decide +kernel
theorem test_hyp_ReadySetOnlyAtBit56 :
    let s := mk params (receiving 6 7 0x61)
    (∃ t, exec (.edgeRise 1500) s = .next t ∧ (∀ ps, Instr.edgeRise 1500 ≠ .frame ps) ∧ s.block.rdy = false ∧
      t.block.rdy = true) ∧
    (∃ t, exec (bitRow false 899) s = .next t ∧ (∀ ps, bitRow false 899 ≠ .frame ps) ∧ s.block.rdy = false ∧
      t.block.rdy = true) :=
  ⟨⟨_, rfl, by simp, rfl, by decide +kernel⟩, ⟨_, rfl, by simp [bitRow], rfl, by decide +kernel⟩⟩
theorem test_hyp_AcceptedBitAdvancesPosition :
    (∃ t, exec (bitRow true 1500) (mk params (receiving 6 6 0)) = .next t ∧
      (mk params (receiving 6 6 0)).block.position < 55) ∧
    (∃ t, exec (bitRow false 600) (mk params (receiving 6 7 0)) = .next t ∧
      (mk params (receiving 6 7 0)).block.position = 55) :=
  ⟨⟨_, rfl, by decide⟩, ⟨_, rfl, by decide⟩⟩
theorem test_hyp_TransmissionDelivered :
    let s := mk params32 idle
    TransmitsOnLine s.params.tsMod frameA pulsesA ∧ s.params.Ok ∧ s.block.en = true ∧ s.block.st = .idle ∧
      s.block.rdy = false :=
  ⟨pulsesA_transmit, by decide +kernel, rfl, rfl, rfl⟩
theorem test_hyp_SecondTransmissionDropped :
    let s := mk params32 { idle with rdy := true, F := frameB }
    TransmitsOnLine s.params.tsMod frameA pulsesA ∧ s.params.Ok ∧ s.block.en = true ∧ s.block.st = .idle ∧
      s.block.rdy = true :=
  ⟨pulsesA_transmit, by decide +kernel, rfl, rfl, rfl⟩
theorem test_hyp_TransmissionAfterTruncatedOneLost :
    let s := mk params32 (receiving 0 5 0)
    TransmitsOnLine s.params.tsMod frameA pulsesA ∧ s.params.Ok ∧ s.block.en = true ∧ s.block.st = .receiving :=
  ⟨pulsesA_transmit, by decide +kernel, rfl, rfl⟩
theorem test_hyp_TransmissionIgnoredWhenDisabled : (mk params (Block.powerOn params)).block.en = false := by decide
theorem test_hyp_HighIntervalsCarryNothing :
    0 < (mk params idle).params.tsMod ∧
      [(⟨0, 8000⟩ : LowPulse), ⟨9000, 600⟩].map LowPulse.dur = [(⟨5, 8000⟩ : LowPulse), ⟨8005, 600⟩].map LowPulse.dur := by
  decide
theorem test_hyp_NoTimeOut : (mk params (receiving 0 5 0)).input = [] := rfl
theorem test_hyp_AvailIdempotentAndFalseAfterTake :
    let s := mk params { receiving 6 7 0 with rdy := true }
    ∃ t, exec (.edgeRise 600) s = .next t ∧ Instr.edgeRise 600 ≠ .take ∧ Instr.edgeRise 600 ≠ .reset ∧
      s.block.rdy = true :=
  ⟨_, rfl, by decide, by decide, rfl⟩
theorem test_hyp_ReadyFrameStableUntilTake :
    let s := mk params { receiving 6 7 0 with rdy := true }
    ∃ t, exec (.edgeRise 600) s = .next t ∧ Instr.edgeRise 600 ≠ .take ∧ Instr.edgeRise 600 ≠ .reset ∧
      s.block.rdy = true :=
  ⟨_, rfl, by decide, by decide, rfl⟩
theorem test_hyp_NoTornFrame :
    let s := mk params32 idle
    ∃ t, s.Legal ∧ (Instr.frame pulsesA).wf s.params.tsMod = true ∧ Instr.frame pulsesA ≠ .reset ∧
      exec (.frame pulsesA) s = .next t :=
  ⟨_, by unfold State.Legal Block.Legal; decide +kernel, by decide +kernel, by simp, rfl⟩
theorem test_hyp_ChecksumDetectsSingleBitErrors : Answers (.validate frameA) (.bit true) := fun _ => ⟨_, rfl, rfl, rfl⟩
theorem test_hyp_ChecksumMissesCompensatingErrors :
    Answers (.validate frameA) (.bit true) ∧ Answers (.validate (frameA.set 6 0)) (.bit false) ∧
      (0 : Fin 7).val < 6 ∧ (1 : Fin 7).val < 6 ∧ (0 : Fin 7) ≠ 1 ∧
      frameA[(0 : Fin 7)].getLsbD (4 : Fin 8) = false ∧ frameA[(1 : Fin 7)].getLsbD (4 : Fin 8) = true :=
  ⟨fun _ => ⟨_, rfl, rfl, rfl⟩, fun _ => ⟨_, rfl, rfl, rfl⟩, by decide⟩
/-- Legal parameters with a bound above 0; with the bound 0 the exact 190.98832 of vector V-S6 realises itself. -/
theorem test_hyp_TemperatureIntegerForm :
    (mk params idle).params.Ok ∧
      (mk { params with tempEps := 0 } idle).params.tempEps = 0 ∧
      TempRealises { params with tempEps := 0 } .celsius frameA (190988320000000 / 10 ^ 12) := by
  decide +kernel
theorem test_hyp_BranchRowsReturnCubics :
    (rawX (raws 0x03 0x44 0x00 0xDD) ≤ 836 ∧ rawY (raws 0x03 0x44 0x00 0xDD) ≤ 221) ∧
      (rawX (raws 0x03 0x45 0x00 0xDD) > 836) ∧ (rawY (raws 0x00 0x00 0x00 0xDE) > 221) := by decide
theorem test_hyp_CubicsDecreaseAndBound : (835 < 836 ∧ 836 ≤ 836) ∧ (65534 < 65535 ∧ 65535 ≤ 65535) := by decide
theorem test_hyp_TempReadsOnlyFirstFourBytes :
    let g := frameA.set 6 0
    frameA[0] = g[0] ∧ frameA[1] = g[1] ∧ frameA[2] = g[2] ∧ frameA[3] = g[3] ∧ frameA ≠ g := by decide
theorem test_hyp_ConsumerOperationsFrame :
    ∀ i ∈ [Instr.begin, .setcfg .celsius true, .avail, .take, .validate frameA, .temp frameA],
      i.issuer = .consumerContext := by decide
theorem test_hyp_EdgeOperationsFrame :
    (∃ t, (Instr.edgeFall 5).issuer = .edgeContext ∧ exec (.edgeFall 5) (mk params idle) = .next t) ∧
      ∃ t, exec (decodePulse (mk params idle).block.st 8000) (mk params idle) = .next t :=
  ⟨⟨_, rfl, rfl⟩, ⟨_, rfl⟩⟩
theorem test_hyp_InterpreterIsPure :
    (mk params (receiving 3 3 3)).block.unit = (mk params idle).block.unit := by decide
theorem test_hyp_ReceptionIgnoresReadyFlag :
    (∃ t, (Instr.edgeRise 600).issuer = .edgeContext ∧ exec (.edgeRise 600) (mk params (receiving 6 7 0)) = .next t) ∧
      ∃ t, exec (decodePulse (mk params (receiving 6 7 0)).block.st 600) (mk params (receiving 6 7 0)) = .next t :=
  ⟨⟨_, rfl, rfl⟩, ⟨_, rfl⟩⟩
theorem test_hyp_DebugModeAltersNothing :
    ∃ t, exec (.pStart 8000) (mk params { idle with debug := true }) = .next t ∧ t.trace = [.start 8000] :=
  ⟨_, rfl, rfl⟩
theorem test_hyp_StreamsNeverRead :
    ∃ t, exec (.pBit1 1500) (mk params (receiving 6 7 0x61)) = .next t ∧ t.block.F ≠ params.fReset :=
  ⟨_, rfl, by decide +kernel⟩
/-- One witness for each error class, and one operation that notes nothing. -/
theorem test_hyp_AtMostOneErrorClass :
    (∃ t, exec (.edgeRise 500) (mk params idle) = .next t ∧ t.notes = [.spuriousEdge]) ∧
      (∃ t, exec (.edgeRise 950) (mk params (receiving 4 2 1)) = .next t ∧ t.notes = [.badPulse 950]) ∧
      (∃ t, exec (.edgeRise 600) (mk params { receiving 6 7 0 with rdy := true }) = .next t ∧ t.notes = [.overrun]) ∧
      (∃ t, exec (.validate (frameA.set 6 0)) (mk params idle) = .next t ∧ t.notes = [.checksumMismatch]) ∧
      (∃ t, exec .avail (mk params idle) = .next t ∧ t.notes = []) ∧ ∀ ps, Instr.edgeRise 500 ≠ .frame ps :=
  ⟨⟨_, rfl, rfl⟩, ⟨_, rfl, rfl⟩, ⟨_, rfl, rfl⟩, ⟨_, rfl, rfl⟩, ⟨_, rfl, rfl⟩, by simp⟩
theorem test_hyp_EveryDecodedEventCompletes :
    let s := coming [.rise 500, .avail] idle
    s.input = .rise 500 :: [.avail] ∧ decode s.select (.event (.rise 500)) = .ok (.edgeRiseSpurious 500) := by
  decide
theorem test_hyp_RowSelectionRoundTrip :
    let c : Select := ⟨16384, .receiving, true, true⟩
    ((Instr.pAbort 1199).wf c.tsMod = true ∧ (Instr.pAbort 1199).selected c = true) ∧
      decode c (.pulse 1199) = .ok (.pAbort 1199) := by decide
theorem test_hyp_TraceLineRoundTrip : Trace.render (.fall 1000) = some (line "F 1000") := by decide
theorem test_hyp_NominalFrameTransmits : 10000 < 16384 ∧ 16383 < 16384 := by decide
theorem test_hyp_TransmissionIsItsEdges :
    0 < (mk params idle).params.tsMod ∧
      ∀ p ∈ [(⟨16383, 8000⟩ : LowPulse), ⟨0, 600⟩], p.fall < (mk params idle).params.tsMod := by decide
theorem test_hyp_StepRunsDecodedRow :
    (mk params idle).input = [] ∧ (coming [.fall 5] idle).input = .fall 5 :: [] ∧
      decode (coming [.fall 5] idle).select (.event (.fall 5)) = .ok (.edgeFall 5) ∧
      (coming [.fall 16384] idle).input = .fall 16384 :: [] ∧
      decode (coming [.fall 16384] idle).select (.event (.fall 16384)) = .error (.timestampOutOfRange 16384) := by
  decide
theorem test_hyp_StepKeepsLegal :
    ∃ t, (coming [.rise 1500] (receiving 6 7 0x61)).Legal ∧ step (coming [.rise 1500] (receiving 6 7 0x61)) = .next t :=
  ⟨_, by unfold State.Legal Block.Legal; decide +kernel, rfl⟩

end Sys2Proof.Tests
end

section
/-! PROOF. The legal values, the ready flag and the debug mode (10_state.md): every row but FRAME as one effect on the
block, FRAME as its low pulses in line order. -/

namespace Sys2Proof.Machine

/-! ### Every row but FRAME as one guarded effect -/

/-- What a row leaves, where it is performed. FRAME is 114 edges and no single effect: its arm is a placeholder, and
`exec_next_iff`, which ties the effects to `exec`, excludes it. -/
def rowEffect (i : Instr) (p : Params) (b : Block) : Effect :=
  match i with
  | .reset => { block := Block.powerOn p }
  | .begin => { block := { b with en := true } }
  | .setcfg u d => { block := { b with unit := u, debug := d } }
  | .edgeFall now => fallEffect now b
  | .edgeRiseSpurious _ => spuriousEffect b
  | .edgeRise now => riseEffect p.tsMod now b
  | .pStart d => startEffect d b
  | .pIdleIgnore _ => ignoreEffect b
  | .pBit0 d => bitEffect false d b
  | .pBit1 d => bitEffect true d b
  | .pAbort d => abortEffect d b
  | .avail => { block := b, result := some (.bit b.rdy) }
  | .take => { block := { b with rdy := false }, result := some (.bytes b.F) }
  | .validate f =>
    { block := b, result := some (.bit (checksumValid f))
      note := if checksumValid f then none else some .checksumMismatch }
  | .temp f => { block := b, result := some (.temperature (temperature b.unit f)) }
  | .tempX f => { block := b, result := some (.temperature (tx (rawX f))) }
  | .tempY f => { block := b, result := some (.temperature (ty (rawY f))) }
  | .frame _ => { block := b }

/-- Where a row is performed: an internal row where it is selected, every other row everywhere. -/
def admits (c : Select) (i : Instr) : Bool :=
  match i with
  | .edgeRiseSpurious _ | .pStart _ | .pIdleIgnore _ | .pBit0 _ | .pBit1 _ | .pAbort _ | .tempX _ | .tempY _ =>
    i.wf c.tsMod && i.selected c
  | _ => true

/-- Every row but FRAME takes over its effect where it is admitted and is refused by name elsewhere. -/
theorem exec_eq_commit_rowEffect {i : Instr} (hi : ∀ ps, i ≠ .frame ps) (s : State) :
    exec i s =
      if admits s.select i then .next (s.commit (rowEffect i s.params s.block)) else .refused .notSelected := by
  cases i with
  | frame ps => exact absurd rfl (hi ps)
  | _ => rfl

theorem exec_next_iff {i : Instr} (hi : ∀ ps, i ≠ .frame ps) {s t : State} :
    exec i s = .next t ↔ admits s.select i = true ∧ t = s.commit (rowEffect i s.params s.block) := by
  rw [exec_eq_commit_rowEffect hi]
  by_cases ha : admits s.select i = true <;> simp [ha, eq_comm]

theorem exec_frame (ps : List LowPulse) (s : State) : exec (.frame ps) s = .next (ps.foldl lowPulse s) := rfl

/-- An operation is a whole FRAME or it is none. -/
theorem frame_or_ne_frame (i : Instr) : (∃ ps, i = .frame ps) ∨ ∀ ps, i ≠ .frame ps := by
  cases i <;> simp

/-- The row an event decodes to has the operands its row admits. -/
theorem wf_of_decode_event {c : Select} {e : Event} {i : Instr} (h : decode c (.event e) = .ok i) :
    i.wf c.tsMod = true := by
  cases e with
  | fall now =>
    simp only [decode] at h
    split at h <;> cases h
    simpa [Instr.wf]
  | rise now =>
    simp only [decode] at h
    split at h
    · split at h <;> cases h <;> simpa [Instr.wf]
    · cases h
  | frame ps =>
    simp only [decode] at h
    split at h <;> cases h
    simpa [Instr.wf]
  | _ => cases h; rfl

/-! ### The legal values (10_state.md R10, R17, R18) -/

/-- The bit at position `bc` keeps the accumulator below the next position (10_state.md R17). -/
theorem shiftIn_toNat_lt {acc : Byte} {bc : Fin 8} (x : Bool) (h : acc.toNat < 2 ^ bc.val) :
    (shiftIn acc bc x).toNat < 2 ^ (bc.val + 1) := by
  have hacc : acc.toNat < 2 ^ (bc.val + 1) := h.trans (Nat.pow_lt_pow_succ (by omega))
  have hbit : ∀ (k : Fin 8) (y : Bool), ((if y then 1#8 else 0#8) <<< k.val : Byte).toNat < 2 ^ (k.val + 1) := by
    decide
  rw [shiftIn, BitVec.toNat_or]
  exact Nat.or_lt_two_pow hacc (hbit bc x)

theorem accept_legal {p : Params} {b : Block} (x : Bool) (hst : b.st = .receiving) (h : b.Legal p) :
    (accept x b).block.Legal p := by
  obtain ⟨ht0, -, hacc⟩ := h
  obtain ⟨_, hx⟩ | ⟨_, _, hx⟩ | ⟨_, _, _, hx⟩ | ⟨_, _, _, hx⟩ := accept_block_cases x b <;> rw [hx]
  · exact ⟨ht0, by simp [hst], shiftIn_toNat_lt x hacc⟩
  · exact ⟨ht0, by simp [hst], by simp⟩
  · exact ⟨ht0, by simp, by simp⟩
  · exact ⟨ht0, by simp, by simp⟩

/-- A zeroed partial frame is legal in either decoder state. -/
theorem clearPartial_legal {p : Params} {b : Block} (st : DecoderState) (h : b.Legal p) :
    ({ b.clearPartial with st := st } : Block).Legal p :=
  ⟨h.1, by simp, by simp⟩

theorem pulse_legal {p : Params} {b : Block} (d : Nat) (h : b.Legal p) : (pulse d b).block.Legal p := by
  obtain ⟨-, -, hp⟩ | ⟨-, -, hp⟩ | ⟨hst, -, hp⟩ | ⟨hst, -, hp⟩ | ⟨-, -, -, hp⟩ := pulse_cases d b <;> rw [hp]
  · exact clearPartial_legal .receiving h
  · exact h
  · exact accept_legal false hst h
  · exact accept_legal true hst h
  · exact clearPartial_legal .idle h

theorem fallEffect_legal {p : Params} {b : Block} {now : Nat} (hn : now < p.tsMod) (h : b.Legal p) :
    (fallEffect now b).block.Legal p := by
  cases he : b.en
  · rw [fallEffect_disabled now he]; exact h
  · rw [fallEffect_enabled now he]; exact ⟨hn, h.2⟩

theorem riseEffect_legal {p : Params} {b : Block} (m now : Nat) (h : b.Legal p) :
    (riseEffect m now b).block.Legal p := by
  obtain ⟨-, hr⟩ | ⟨-, -, hr⟩ | ⟨-, -, hr⟩ := riseEffect_cases m now b <;> rw [hr]
  · exact h
  · exact h
  · exact pulse_legal (b := { b with pend := false }) _ h

theorem powerOn_legal {p : Params} (h : p.Ok) : (Block.powerOn p).Legal p :=
  have ⟨_, ht0, _⟩ := h
  ⟨ht0, by simp, by simp⟩

/-- A bit row is performed in RECEIVING only. -/
theorem receiving_of_admits_bitRow {x : Bool} {d : Nat} {s : State} (h : admits s.select (bitRow x d) = true) :
    s.block.st = .receiving := by
  cases x <;> exact of_decide_eq_true (Bool.and_eq_true_iff.1 h).2

theorem rowEffect_legal {i : Instr} {s : State} (hw : i.wf s.params.tsMod = true) (ha : admits s.select i = true)
    (h : s.Legal) : (rowEffect i s.params s.block).block.Legal s.params := by
  obtain ⟨hp, hb⟩ := h
  cases i with
  | reset => exact powerOn_legal hp
  | edgeFall now => exact fallEffect_legal (by simpa [Instr.wf] using hw) hb
  | edgeRise now => exact riseEffect_legal _ now hb
  | pStart d => exact clearPartial_legal .receiving hb
  | pBit0 d => exact accept_legal false (receiving_of_admits_bitRow (x := false) ha) hb
  | pBit1 d => exact accept_legal true (receiving_of_admits_bitRow (x := true) ha) hb
  | pAbort d => exact clearPartial_legal .idle hb
  | _ => exact hb

theorem lowPulse_legal {s : State} {p : LowPulse} (hf : p.fall < s.params.tsMod) (h : s.Legal) :
    (lowPulse s p).Legal :=
  ⟨h.1, riseEffect_legal _ _ (fallEffect_legal hf h.2)⟩

theorem foldl_lowPulse_legal {ps : List LowPulse} {s : State} (hf : ∀ p ∈ ps, p.fall < s.params.tsMod)
    (h : s.Legal) : (ps.foldl lowPulse s).Legal := by
  induction ps generalizing s with
  | nil => exact h
  | cons p ps ih =>
    obtain ⟨hp, hps⟩ := List.forall_mem_cons.1 hf
    exact ih hps (lowPulse_legal hp h)

/-- Every operation with operands of its row keeps the invariant. -/
theorem exec_legal {i : Instr} {s t : State} (hw : i.wf s.params.tsMod = true) (h : s.Legal)
    (ht : exec i s = .next t) : t.Legal := by
  obtain ⟨ps, rfl⟩ | hi := frame_or_ne_frame i
  · cases ht
    have hf : ∀ p ∈ ps, p.fall < s.params.tsMod := by
      simp only [Instr.wf, frameOk, Bool.and_eq_true, List.all_eq_true, decide_eq_true_eq] at hw
      exact hw.1
    exact foldl_lowPulse_legal hf h
  · obtain ⟨ha, rfl⟩ := (exec_next_iff hi).1 ht
    exact ⟨h.1, rowEffect_legal hw ha h⟩

/-- Settles O60: the row a step performs has operands of its row, and every such row keeps the invariant. -/
theorem stepKeepsLegal : Obligations.StepKeepsLegal := by
  unfold Obligations.StepKeepsLegal
  intro s t hs ht
  cases hin : s.input with
  | nil =>
    rw [step_idle hin] at ht
    cases ht
    exact hs
  | cons e rest =>
    cases hd : decode s.select (.event e) with
    | error r =>
      rw [step_undecodable hin hd] at ht
      cases ht
    | ok i =>
      rw [step_event hin hd] at ht
      exact exec_legal (s := { s with input := rest }) (wf_of_decode_event hd) hs ht

/-! ### Where the ready flag is set (41_decoder_fsm.md R98, R106) -/

/-- The frame a step publishes: the block stood at position 55, and the block after it is IDLE with F equal to W. -/
def Publishes (b b' : Block) : Prop := b.st = .receiving ∧ b.position = 55 ∧ b'.F = b'.W ∧ b'.st = .idle

theorem accept_publishes {x : Bool} {b : Block} (hst : b.st = .receiving) (h0 : b.rdy = false)
    (h1 : (accept x b).block.rdy = true) : Publishes b (accept x b).block := by
  obtain ⟨_, hx⟩ | ⟨_, _, hx⟩ | ⟨h7, h6, _, hx⟩ | ⟨_, _, hr, _⟩ := accept_block_cases x b
  · simp [hx, h0] at h1
  · simp [hx, h0] at h1
  · rw [hx]
    exact ⟨hst, by simp [Block.position, h6, h7], rfl, rfl⟩
  · simp [h0] at hr

/-- PULSE sets `rdy` only by accepting the 56th bit. -/
theorem pulse_publishes {d : Nat} {b : Block} (h0 : b.rdy = false) (h1 : (pulse d b).block.rdy = true) :
    Publishes b (pulse d b).block ∧ ∃ x, Carries x d := by
  obtain ⟨-, -, hp⟩ | ⟨-, -, hp⟩ | ⟨hst, hd, hp⟩ | ⟨hst, hd, hp⟩ | ⟨-, -, -, hp⟩ := pulse_cases d b <;>
    rw [hp] at h1 ⊢
  · simp [startEffect, h0] at h1
  · simp [ignoreEffect, h0] at h1
  · exact ⟨accept_publishes hst h0 h1, false, isBit0_iff.1 hd⟩
  · exact ⟨accept_publishes hst h0 h1, true, isBit1_iff.1 hd⟩
  · simp [abortEffect, h0] at h1

theorem riseEffect_publishes {m now : Nat} {b : Block} (h0 : b.rdy = false)
    (h1 : (riseEffect m now b).block.rdy = true) :
    Publishes b (riseEffect m now b).block ∧ b.en = true ∧ b.pend = true ∧ ∃ x, Carries x (lowDur m b.t0 now) := by
  obtain ⟨-, hr⟩ | ⟨-, -, hr⟩ | ⟨he, hp, hr⟩ := riseEffect_cases m now b <;> rw [hr] at h1 ⊢
  · simp [h0] at h1
  · simp [h0] at h1
  · obtain ⟨hpub, hc⟩ := pulse_publishes (b := { b with pend := false }) h0 h1
    exact ⟨hpub, he, hp, hc⟩

/-- A row other than a bit row and a rising edge leaves `rdy` at 0. -/
theorem bitRow_or_edgeRise_of_sets_rdy {i : Instr} {p : Params} {b : Block} (h0 : b.rdy = false)
    (h1 : (rowEffect i p b).block.rdy = true) : (∃ x d, i = bitRow x d) ∨ ∃ now, i = .edgeRise now := by
  cases i with
  | pBit0 d => exact .inl ⟨false, d, rfl⟩
  | pBit1 d => exact .inl ⟨true, d, rfl⟩
  | edgeRise now => exact .inr ⟨now, rfl⟩
  | edgeFall now => simp [rowEffect, fallEffect_keeps, h0] at h1
  | _ => simp [rowEffect, spuriousEffect, startEffect, ignoreEffect, abortEffect, h0] at h1

/-- Settles O22: of the rows that can set `rdy`, a bit row and a measured rising edge, each publishes the frame whose
56th bit it accepts. -/
theorem readySetOnlyAtBit56 : Obligations.ReadySetOnlyAtBit56 := by
  unfold Obligations.ReadySetOnlyAtBit56
  intro i s t ht hi h0 h1
  obtain ⟨-, hcommit⟩ := (exec_next_iff hi).1 ht
  obtain ⟨x, d, rfl⟩ | ⟨now, rfl⟩ := bitRow_or_edgeRise_of_sets_rdy h0 (by simpa [hcommit] using h1)
  · obtain ⟨hst, hc, -, rfl⟩ := exec_bitRow_next ht
    obtain ⟨-, hpos, hF, hidle⟩ := accept_publishes (x := x) hst h0 h1
    exact ⟨hst, hpos, hF, hidle, .inr ⟨x, d, rfl, hc⟩⟩
  · subst hcommit
    obtain ⟨⟨hst, hpos, hF, hidle⟩, he, hp, x, hc⟩ := riseEffect_publishes h0 h1
    exact ⟨hst, hpos, hF, hidle, .inl ⟨now, x, rfl, he, hp, hc⟩⟩

/-! ### The debug mode (10_state.md R25, 60_exceptions.md R160) -/

/-- The block with `CFG.DEBUG` at `g`. -/
def Block.withDebug (g : Bool) (b : Block) : Block := { b with debug := g }

/-- The effect with `CFG.DEBUG` at `g` in the block it leaves. -/
def Effect.withDebug (g : Bool) (e : Effect) : Effect := { e with block := e.block.withDebug g }

section Commuting

variable (g : Bool) (b : Block)

theorem frameDone_withDebug : frameDone (b.withDebug g) = (frameDone b).withDebug g := by
  cases hr : b.rdy <;> simp [frameDone, Block.withDebug, Effect.withDebug, hr]

theorem byteDone_withDebug (v : Byte) : byteDone v (b.withDebug g) = (byteDone v b).withDebug g := by
  by_cases hb : b.bi.val + 1 < 7
  · simp [byteDone, Block.withDebug, Effect.withDebug, hb]
  · have hdone := frameDone_withDebug g { b with W := memWrite b.W b.bi v, acc := 0, bc := 0 }
    simpa [byteDone, Block.withDebug, hb] using hdone

theorem accept_withDebug (x : Bool) : accept x (b.withDebug g) = (accept x b).withDebug g := by
  by_cases hb : b.bc.val + 1 < 8
  · simp [accept, Block.withDebug, Effect.withDebug, hb]
  · have hdone := byteDone_withDebug g b (shiftIn b.acc b.bc x)
    simpa [accept, Block.withDebug, hb] using hdone

theorem bitEffect_withDebug (x : Bool) (d : Nat) :
    bitEffect x d (b.withDebug g) = (bitEffect x d b).withDebug g := by
  rw [bitEffect, accept_withDebug]; rfl

theorem pulse_withDebug (d : Nat) : pulse d (b.withDebug g) = (pulse d b).withDebug g := by
  have hst : (b.withDebug g).st = b.st := rfl
  rw [pulse, pulse, hst]
  cases classify b.st d with
  | bit0 => exact bitEffect_withDebug g b false d
  | bit1 => exact bitEffect_withDebug g b true d
  | _ => rfl

theorem fallEffect_withDebug (now : Nat) : fallEffect now (b.withDebug g) = (fallEffect now b).withDebug g := by
  cases he : b.en <;> simp [fallEffect, Effect.withDebug, Block.withDebug, he]

theorem riseEffect_withDebug (m now : Nat) :
    riseEffect m now (b.withDebug g) = (riseEffect m now b).withDebug g := by
  obtain ⟨he, hr⟩ | ⟨he, hp, hr⟩ | ⟨he, hp, hr⟩ := riseEffect_cases m now b <;> rw [hr]
  · exact riseEffect_disabled m now he
  · exact riseEffect_spurious m now he hp
  · rw [riseEffect_measured (b := b.withDebug g) m now he hp]
    exact pulse_withDebug g { b with pend := false } _

/-- The effect of every row is the same but for the debug bit of the block it leaves. -/
theorem rowEffect_withDebug (i : Instr) (p : Params) :
    ∃ g', rowEffect i p (b.withDebug g) = (rowEffect i p b).withDebug g' := by
  cases i with
  | reset => exact ⟨p.debugReset, rfl⟩
  | setcfg u d => exact ⟨d, rfl⟩
  | edgeFall now => exact ⟨g, fallEffect_withDebug g b now⟩
  | edgeRise now => exact ⟨g, riseEffect_withDebug g b p.tsMod now⟩
  | pBit0 d => exact ⟨g, bitEffect_withDebug g b false d⟩
  | pBit1 d => exact ⟨g, bitEffect_withDebug g b true d⟩
  | _ => exact ⟨g, rfl⟩

end Commuting

/-- The two machines differ in the debug bit and in the debug trace at most. -/
structure SameButDebug (s u : State) : Prop where
  block   : u.block.withDebug s.block.debug = s.block
  params  : u.params = s.params
  input   : u.input = s.input
  results : u.results = s.results
  notes   : u.notes = s.notes

theorem SameButDebug.block_eq {s u : State} (h : SameButDebug s u) : u.block = s.block.withDebug u.block.debug := by
  rw [← h.block]; rfl

theorem SameButDebug.select_eq {s u : State} (h : SameButDebug s u) : u.select = s.select := by
  rw [State.select, h.params, h.block_eq]; rfl

theorem SameButDebug.commit {s u : State} (h : SameButDebug s u) (e : Effect) (g : Bool) :
    SameButDebug (s.commit e) (u.commit (e.withDebug g)) where
  block := rfl
  params := h.params
  input := h.input
  results := by simp [h.results, Effect.withDebug]
  notes := by simp [h.notes, Effect.withDebug]

theorem SameButDebug.fall {s u : State} (h : SameButDebug s u) (now : Nat) :
    SameButDebug (s.commit (fallEffect now s.block)) (u.commit (fallEffect now u.block)) := by
  rw [h.block_eq, fallEffect_withDebug]
  exact h.commit _ _

theorem SameButDebug.rise {s u : State} (h : SameButDebug s u) (m now : Nat) :
    SameButDebug (s.commit (riseEffect m now s.block)) (u.commit (riseEffect m now u.block)) := by
  rw [h.block_eq, riseEffect_withDebug]
  exact h.commit _ _

theorem SameButDebug.lowPulse {s u : State} (h : SameButDebug s u) (p : LowPulse) :
    SameButDebug (lowPulse s p) (lowPulse u p) := by
  have hrise := (h.fall p.fall).rise s.params.tsMod (riseAt s.params.tsMod p)
  simpa only [Machine.lowPulse, State.commit_params, h.params] using hrise

theorem SameButDebug.foldl_lowPulse {s u : State} (h : SameButDebug s u) (ps : List LowPulse) :
    SameButDebug (ps.foldl Machine.lowPulse s) (ps.foldl Machine.lowPulse u) := by
  induction ps generalizing s u with
  | nil => exact h
  | cons p ps ih => exact ih (h.lowPulse p)

/-- Machines that differ in the debug mode perform the same operations and still differ in it at most. -/
theorem SameButDebug.exec {i : Instr} {s t u : State} (h : SameButDebug s u) (ht : exec i s = .next t) :
    ∃ v, exec i u = .next v ∧ SameButDebug t v := by
  obtain ⟨ps, rfl⟩ | hi := frame_or_ne_frame i
  · cases ht
    exact ⟨_, exec_frame ps u, h.foldl_lowPulse ps⟩
  · obtain ⟨ha, rfl⟩ := (exec_next_iff hi).1 ht
    obtain ⟨g, hg⟩ := rowEffect_withDebug u.block.debug s.block i s.params
    refine ⟨_, (exec_next_iff hi).2 ⟨h.select_eq ▸ ha, rfl⟩, ?_⟩
    rw [h.params, h.block_eq, hg]
    exact h.commit _ g

/-- An operation of the edge context leaves the debug mode as it is. -/
theorem EdgeKeeps.debug_eq {s t : State} (h : EdgeKeeps s t) : t.block.debug = s.block.debug := by
  obtain ⟨-, -, hdebug, -⟩ := h
  exact hdebug

/-- With the debug mode off an effect is taken over without a trace record. -/
theorem commit_trace_of_debug_off {s : State} (h : s.block.debug = false) (e : Effect) :
    (s.commit e).trace = s.trace := by
  simp [h]

theorem foldl_lowPulse_trace_of_debug_off (ps : List LowPulse) {s : State} (h : s.block.debug = false) :
    (ps.foldl lowPulse s).trace = s.trace := by
  induction ps generalizing s with
  | nil => rfl
  | cons p ps ih =>
    have hfall : (s.commit (fallEffect p.fall s.block)).block.debug = false :=
      (edgeKeeps_fall p.fall s).debug_eq.trans h
    have hpulse : (lowPulse s p).trace = s.trace :=
      (commit_trace_of_debug_off hfall _).trans (commit_trace_of_debug_off h _)
    have hdebug : (lowPulse s p).block.debug = false := (edgeKeeps_lowPulse s p).debug_eq.trans h
    exact (ih hdebug).trans hpulse

theorem exec_trace_of_debug_off {i : Instr} {s t : State} (ht : exec i s = .next t) (h : s.block.debug = false) :
    t.trace = s.trace := by
  obtain ⟨ps, rfl⟩ | hi := frame_or_ne_frame i
  · cases ht
    exact foldl_lowPulse_trace_of_debug_off ps h
  · obtain ⟨-, rfl⟩ := (exec_next_iff hi).1 ht
    exact commit_trace_of_debug_off h _

/-- Settles O48: the two machines differ in the debug bit only, and every operation keeps that. -/
theorem debugModeAltersNothing : Obligations.DebugModeAltersNothing := by
  unfold Obligations.DebugModeAltersNothing
  intro i s t g ht
  have hstart : SameButDebug s { s with block := { s.block with debug := g } } := ⟨rfl, rfl, rfl, rfl, rfl⟩
  obtain ⟨u, hu, hsame⟩ := hstart.exec ht
  exact ⟨u, hu, hsame.block, hsame.params, hsame.input, hsame.results, hsame.notes, exec_trace_of_debug_off ht⟩

end Sys2Proof.Machine
end

section
/-! PROOF. The buffers (20_memory.md): W is filled in wire order, the slot of F is filled by publishing and emptied by
TAKE, and the consumer context leaves reception and buffers alone. -/

namespace Sys2Proof.Machine

/-! ### Reception in wire order (20_memory.md R42, R43) -/

theorem Block.HasReceived.receiving {b : Block} {bs : List Bool} (h : b.HasReceived bs) : b.st = .receiving := h.1

theorem Block.HasReceived.length_eq {b : Block} {bs : List Bool} (h : b.HasReceived bs) :
    bs.length = 8 * b.bi.val + b.bc.val := h.2.1

/-- The accumulator takes the next bit where the wire order has it. -/
theorem Block.HasReceived.shiftIn_eq {b : Block} {bs : List Bool} (h : b.HasReceived bs) (x : Bool) :
    shiftIn b.acc b.bc x = packAt (bs ++ [x]) b.bi.val := by
  have hlen := h.length_eq
  obtain ⟨-, -, -, hacc⟩ := h
  rw [packAt_append_at bs x b.bi.val b.bc.val hlen b.bc.isLt, ← hacc, shiftIn]

/-- The finished bytes in W stay the bytes of the wire order when one more bit has arrived. -/
theorem Block.HasReceived.memRead_eq {b : Block} {bs : List Bool} (h : b.HasReceived bs) (x : Bool) {i : Fin 7}
    (hi : i < b.bi) : memRead b.W i = packAt (bs ++ [x]) i.val := by
  have hlen := h.length_eq
  obtain ⟨-, -, hW, -⟩ := h
  rw [hW i hi, packAt_append_before bs x i.val (by omega)]

/-- Storing the byte under assembly leaves in W the bytes of the wire order up to that one. -/
theorem Block.HasReceived.memRead_store {b : Block} {bs : List Bool} (h : b.HasReceived bs) (x : Bool) {i : Fin 7}
    (hi : i ≤ b.bi) : memRead (memWrite b.W b.bi (shiftIn b.acc b.bc x)) i = packAt (bs ++ [x]) i.val := by
  obtain hlt | rfl := lt_or_eq_of_le hi
  · rw [memRead_memWrite_other _ _ hlt.ne, h.memRead_eq x hlt]
  · rw [memRead_memWrite_same, h.shiftIn_eq]

/-- Storing the seventh byte leaves in W the frame the bits spell. -/
theorem Block.HasReceived.store_last {b : Block} {bs : List Bool} (h : b.HasReceived bs) (x : Bool)
    (h6 : b.bi.val = 6) : memWrite b.W b.bi (shiftIn b.acc b.bc x) = packFrame (bs ++ [x]) :=
  frame_ext fun i => by
    have hi : i ≤ b.bi := Fin.le_def.2 (by omega)
    rw [h.memRead_store x hi, memRead_packFrame]

theorem startEffect_hasReceived (d : Nat) (b : Block) : (startEffect d b).block.HasReceived [] :=
  ⟨rfl, rfl, fun i hi => absurd hi (Fin.not_lt_zero i), rfl⟩

/-- A bit before the 56th is received after those before it. -/
theorem accept_hasReceived {b : Block} {bs : List Bool} (x : Bool) (h : b.HasReceived bs) (hn : bs.length < 55) :
    (accept x b).block.HasReceived (bs ++ [x]) := by
  have hlen := h.length_eq
  obtain ⟨h8, hx⟩ | ⟨h7, hb, hx⟩ | ⟨h7, h6, -, -⟩ | ⟨h7, h6, -, -⟩ := accept_block_cases x b
  · rw [hx]
    exact ⟨h.receiving, by simp [Block.position, hlen]; omega, fun i hi => h.memRead_eq x hi, h.shiftIn_eq x⟩
  · rw [hx]
    have hlen' : (bs ++ [x]).length = 8 * (b.bi.val + 1) := by simp [hlen]; omega
    exact ⟨h.receiving, hlen', fun i hi => h.memRead_store x (Fin.le_def.2 (Nat.le_of_lt_succ hi)),
      (packAt_end _ _ hlen'.le).symm⟩
  · omega
  · omega

/-- What the 56th bit leaves: W spells the bits received, the decoder is IDLE, and F takes W from a free slot only. -/
theorem accept_last {b : Block} {bs : List Bool} (x : Bool) (h : b.HasReceived bs) (hn : bs.length = 55) :
    (accept x b).block.W = packFrame (bs ++ [x]) ∧ (accept x b).block.st = .idle ∧
      (b.rdy = false → (accept x b).block.F = packFrame (bs ++ [x]) ∧ (accept x b).block.rdy = true) ∧
      (b.rdy = true → (accept x b).block.F = b.F ∧ (accept x b).block.rdy = true) := by
  have hlen := h.length_eq
  obtain ⟨h8, -⟩ | ⟨h7, hb, -⟩ | ⟨h7, h6, hr, hx⟩ | ⟨h7, h6, hr, hx⟩ := accept_block_cases x b
  · omega
  · omega
  · simp [hx, hr, h.store_last x h6]
  · simp [hx, hr, h.store_last x h6]

/-- Settles O21: a start marker begins with no bit received, and PULSE of a pulse that carries `x` is ACCEPT of `x`,
which stores a byte where the wire order has it. -/
theorem receptionFollowsWireOrder : Obligations.ReceptionFollowsWireOrder := by
  unfold Obligations.ReceptionFollowsWireOrder
  refine ⟨fun d b hc => ?_, fun x d bs b h hx hn => ?_, fun x d bs b h hx hn => ?_⟩
  · rw [show pulse d b = startEffect d b by simp [pulse, hc]]
    exact startEffect_hasReceived d b
  · rw [pulse_bit h.receiving hx]
    exact accept_hasReceived x h hn
  · rw [pulse_bit h.receiving hx]
    exact accept_last x h hn

/-! ### The slot of F (20_memory.md R51, R54) -/

/-- TAKE clears `rdy` and RESET replaces the block; every other row but FRAME keeps the slot rule. -/
theorem rowEffect_slot {i : Instr} (hreset : i ≠ .reset) (htake : i ≠ .take) (p : Params) (b : Block) :
    SlotRule b (rowEffect i p b).block := by
  cases i with
  | reset => exact absurd rfl hreset
  | take => exact absurd rfl htake
  | edgeFall now =>
    obtain ⟨hF, hrdy, -⟩ := fallEffect_keeps now b
    exact .refl_of hF hrdy
  | edgeRise now => exact riseEffect_slot p.tsMod now b
  | pBit0 d => exact accept_slot false b
  | pBit1 d => exact accept_slot true b
  | _ => exact .refl_of rfl rfl

/-- Settles O33: a full slot is kept by every edge of a FRAME, and by every other row by the slot rule. -/
theorem readyFrameStableUntilTake : Obligations.ReadyFrameStableUntilTake := by
  unfold Obligations.ReadyFrameStableUntilTake
  intro i s t ht htake hreset hrdy
  obtain ⟨ps, rfl⟩ | hi := frame_or_ne_frame i
  · cases ht
    obtain ⟨-, -, -, -, -, -, hslot⟩ := edgeKeeps_foldl ps s
    exact hslot hrdy
  · obtain ⟨-, rfl⟩ := (exec_next_iff hi).1 ht
    exact (rowEffect_slot hreset htake s.params s.block).1 hrdy

/-- The slot rule reads nothing of the block before but F and `rdy`. -/
theorem SlotRule.of_eq {b c b' : Block} (h : SlotRule b b') (hF : b.F = c.F) (hrdy : b.rdy = c.rdy) :
    SlotRule c b' := by
  rwa [SlotRule, ← hF, ← hrdy]

/-- A short pulse keeps the slot rule from an earlier block: what was published before it stays, the decoder being
IDLE since. -/
theorem SlotRule.short_pulse {b b' : Block} {d : Nat} (h : SlotRule b b') (hd : d < 7000) :
    SlotRule b (pulse d b').block := by
  obtain ⟨hF, hrdy⟩ | ⟨-, -, -, hidle⟩ := h.2
  · exact (pulse_slot d b').of_eq hF hrdy
  · rw [pulse, hidle, classify_idle_ignored.2 (.inl hd)]
    exact h

theorem lowPulse_slot (s : State) (p : LowPulse) : SlotRule s.block (lowPulse s p).block := by
  obtain ⟨hF, hrdy, -⟩ := fallEffect_keeps p.fall s.block
  exact (riseEffect_slot _ _ (fallEffect p.fall s.block).block).of_eq hF hrdy

theorem SlotRule.short_lowPulse {b : Block} {s : State} {p : LowPulse} (h : SlotRule b s.block)
    (hm : 0 < s.params.tsMod) (hd : p.dur < 7000) : SlotRule b (lowPulse s p).block := by
  cases he : s.block.en
  · rwa [lowPulse_disabled p he]
  · rw [lowPulse_enabled p hm he]
    exact SlotRule.short_pulse (b' := { s.block with t0 := p.fall, pend := false }) h ((Nat.mod_le _ _).trans_lt hd)

theorem SlotRule.foldl_short_lowPulse {b : Block} {s : State} {ps : List LowPulse} (h : SlotRule b s.block)
    (hm : 0 < s.params.tsMod) (hd : ∀ p ∈ ps, p.dur < 7000) : SlotRule b (ps.foldl lowPulse s).block := by
  induction ps generalizing s with
  | nil => exact h
  | cons p ps ih =>
    obtain ⟨hp, hps⟩ := List.forall_mem_cons.1 hd
    exact ih (h.short_lowPulse hm hp) hm hps

theorem carries_of_mem {ds : List Nat} {bs : List Bool} (h : List.Forall₂ (fun d x => Carries x d) ds bs) :
    ∀ d ∈ ds, ∃ x, Carries x d := by
  induction h with
  | nil => simp
  | cons hc _ ih => exact List.forall_mem_cons.2 ⟨⟨_, hc⟩, ih⟩

/-- The pulses of a well-formed transmission after its start marker carry bits, so they are short. -/
theorem short_of_frameOk {m : Nat} {p : LowPulse} {ps : List LowPulse} (h : frameOk m (p :: ps) = true) :
    ∀ q ∈ ps, q.dur < 7000 := by
  obtain ⟨-, hdec⟩ := Bool.and_eq_true_iff.1 h
  obtain ⟨f, hf⟩ := Option.isSome_iff_exists.1 hdec
  rw [List.map_cons, decodeWire] at hf
  obtain ⟨bs, hbs, -⟩ := Option.map_eq_some_iff.1 (Option.ite_none_right_eq_some.1 hf).2
  intro q hq
  obtain ⟨x, hx⟩ := carries_of_mem (pulseBits_eq_some.1 hbs) q.dur (List.mem_map_of_mem hq)
  exact (Carries.le hx).trans_lt (by decide)

/-- FRAME keeps the slot rule: its start marker does, and the short pulses after it can publish at most once. -/
theorem frame_slot {ps : List LowPulse} {s : State} (hm : 0 < s.params.tsMod)
    (hw : (Instr.frame ps).wf s.params.tsMod = true) : SlotRule s.block (ps.foldl lowPulse s).block := by
  cases ps with
  | nil => exact .refl_of rfl rfl
  | cons p ps => exact (lowPulse_slot s p).foldl_short_lowPulse hm (short_of_frameOk hw)

/-- Settles O34: TAKE leaves F alone, and every other operation but RESET keeps the slot rule. -/
theorem noTornFrame : Obligations.NoTornFrame := by
  unfold Obligations.NoTornFrame
  intro i s t hs hw hreset ht
  by_cases htake : i = .take
  · subst htake
    cases ht
    exact .inl rfl
  · have hslot : SlotRule s.block t.block := by
      obtain ⟨ps, rfl⟩ | hi := frame_or_ne_frame i
      · cases ht
        obtain ⟨⟨hm, -⟩, -⟩ := hs
        exact frame_slot (by omega) hw
      · obtain ⟨-, rfl⟩ := (exec_next_iff hi).1 ht
        exact rowEffect_slot hreset htake s.params s.block
    obtain ⟨hF, -⟩ | ⟨h0, h1, hF, -⟩ := hslot.2
    · exact .inl hF
    · exact .inr ⟨h0, h1, hF⟩

/-! ### The consumer context (10_state.md R27, 20_memory.md R47) -/

/-- The six operations of the consumer context. -/
theorem consumer_cases {i : Instr} (h : i.issuer = .consumerContext) :
    i = .begin ∨ (∃ u d, i = .setcfg u d) ∨ i = .avail ∨ i = .take ∨ (∃ f, i = .validate f) ∨ ∃ f, i = .temp f := by
  cases i <;> simp [Instr.issuer] at h ⊢

/-- Settles O44: each of the six operations takes over one effect, which names what it writes. -/
theorem consumerOperationsFrame : Obligations.ConsumerOperationsFrame := by
  unfold Obligations.ConsumerOperationsFrame
  intro i s h
  obtain rfl | ⟨u, d, rfl⟩ | rfl | rfl | ⟨f, rfl⟩ | ⟨f, rfl⟩ := consumer_cases h <;>
    exact ⟨_, rfl, by simp [Block.SameReception]⟩

end Sys2Proof.Machine
end

section
/-! PROOF. The encodings (30_encoding.md): the duration table, the WIRE format and its nominal frame, a transmission as
its durations and as its edges, and words of trace text. -/

namespace Sys2Proof.Machine

/-! ### The duration table (30_encoding.md R61, R62) -/

/-- Settles O11: a duration in a row's band makes that row well-formed, the decoder state selects it, and a well-formed
selected row is what its duration decodes to. -/
theorem durationTable : Obligations.DurationTable := by
  unfold Obligations.DurationTable
  intro c d hd
  refine ⟨fun hst => ⟨fun h => ?_, fun h => ?_⟩, fun hst => ⟨fun h => ?_, fun h => ?_, fun h => ?_⟩⟩
  · exact Laws.RowRoundTrip.pStart d c (by simp [Instr.wf, hd, classify_idle_start.2 h])
      (by simp [Instr.selected, hst])
  · exact Laws.RowRoundTrip.pIdleIgnore d c (by simp [Instr.wf, hd, classify_idle_ignored.2 h])
      (by simp [Instr.selected, hst])
  · exact Laws.RowRoundTrip.pBit0 d c (by simp [Instr.wf, hd, classify_receiving_bit0.2 h])
      (by simp [Instr.selected, hst])
  · exact Laws.RowRoundTrip.pBit1 d c (by simp [Instr.wf, hd, classify_receiving_bit1.2 h])
      (by simp [Instr.selected, hst])
  · exact Laws.RowRoundTrip.pAbort d c (by simp [Instr.wf, hd, classify_receiving_violation.2 h])
      (by simp [Instr.selected, hst])

/-! ### The WIRE format (30_encoding.md R63) -/

/-- A transmission of `f`: a start marker, then pulses that carry the bits of `f` in wire order. -/
theorem transmits_cons_iff {f : Frame} {d : Nat} {ds : List Nat} :
    Transmits f (d :: ds) ↔ isStart d = true ∧ List.Forall₂ (fun d x => Carries x d) ds (frameBitList f) := by
  rw [isStart_iff, List.forall₂_iff_get]
  constructor
  · rintro ⟨d', bits, heq, hlo, hhi, hlen, hbits⟩
    obtain ⟨rfl, rfl⟩ := List.cons.inj heq
    refine ⟨⟨hlo, hhi⟩, hlen, fun n hn hf => ?_⟩
    rw [List.get_eq_getElem, frameBitList_getElem f n (by omega) hf]
    exact hbits n (by omega) hn
  · rintro ⟨⟨hlo, hhi⟩, hlen, hbits⟩
    refine ⟨d, ds, rfl, hlo, hhi, hlen, fun n hn hb => ?_⟩
    have hf : n < (frameBitList f).length := by simpa using hn
    rw [← frameBitList_getElem f n hn hf]
    exact hbits n hb hf

/-- 56 bits pack to the frame whose wire order they are. -/
theorem packFrame_eq_iff {bs : List Bool} {f : Frame} (h : bs.length = 56) :
    packFrame bs = f ↔ bs = frameBitList f := by
  constructor
  · rintro rfl; exact (frameBitList_packFrame bs h).symm
  · rintro rfl; exact packFrame_frameBitList f

/-- The durations read back as `f`: a start marker, then 56 pulses that carry bits which pack to `f`. -/
theorem decodeWire_cons_eq_some {f : Frame} {d : Nat} {ds : List Nat} :
    decodeWire (d :: ds) = some f ↔
      isStart d = true ∧ ds.length = 56 ∧
        ∃ bs, List.Forall₂ (fun d x => Carries x d) ds bs ∧ packFrame bs = f := by
  simp only [decodeWire, Option.ite_none_right_eq_some, Bool.and_eq_true, decide_eq_true_eq, Option.map_eq_some_iff,
    pulseBits_eq_some, and_assoc]

/-- Settles O54: the 56 bits the pulses carry pack to `f` exactly when they are the wire order of `f`. -/
theorem wireFormatDecodes : Obligations.WireFormatDecodes := by
  unfold Obligations.WireFormatDecodes
  intro f ds
  cases ds with
  | nil => simp [decodeWire, Transmits]
  | cons d ds =>
    rw [decodeWire_cons_eq_some, transmits_cons_iff]
    refine and_congr_right fun _ => ⟨?_, fun h => ?_⟩
    · rintro ⟨hlen, bs, hbs, hf⟩
      exact (packFrame_eq_iff (hbs.length_eq.symm.trans hlen)).1 hf ▸ hbs
    · exact ⟨h.length_eq, _, h, packFrame_frameBitList f⟩

/-! ### The nominal frame (30_encoding.md R73) -/

theorem carries_nominalBit (x : Bool) : Carries x (Trace.nominalBit x) := by
  cases x <;> simp [Carries, Trace.nominalBit]

/-- The durations of `FRAME b0 .. b6` are a well-formed transmission of its bytes. -/
theorem frameDurations_transmits (f : Frame) : Transmits f (Trace.frameDurations f) := by
  refine transmits_cons_iff.2 ⟨by decide, ?_⟩
  rw [List.forall₂_map_left_iff]
  exact List.forall₂_same.2 fun x _ => carries_nominalBit x

/-- `LOW d` has the duration `d`. -/
theorem lows_map_dur (m : Nat) (ds : List Nat) (t : Nat) : (Trace.lows m t ds).1.map LowPulse.dur = ds := by
  induction ds generalizing t with
  | nil => rfl
  | cons d ds ih => exact congrArg (d :: ·) (ih _)

theorem afterLow_lt {m : Nat} (hm : 0 < m) (t d : Nat) : Trace.afterLow m t d < m := Nat.mod_lt _ hm

/-- Every falling edge of `LOW d` is at a timestamp. -/
theorem lows_fall_lt {m t : Nat} (ht : t < m) (ds : List Nat) : ∀ p ∈ (Trace.lows m t ds).1, p.fall < m := by
  induction ds generalizing t with
  | nil => simp [Trace.lows]
  | cons d ds ih => exact List.forall_mem_cons.2 ⟨ht, ih (afterLow_lt (by omega) t d)⟩

/-- The cursor advances by the low time and the gap of each pulse. -/
theorem lows_cursor {m t : Nat} (ht : t < m) (ds : List Nat) :
    (Trace.lows m t ds).2 = (t + ds.sum + Trace.nominalGap * ds.length) % m := by
  induction ds generalizing t with
  | nil => simp [Trace.lows, Nat.mod_eq_of_lt ht]
  | cons d ds ih =>
    calc (Trace.lows m t (d :: ds)).2
        = (Trace.afterLow m t d + ds.sum + Trace.nominalGap * ds.length) % m := ih (afterLow_lt (by omega) t d)
      _ = (t + d + Trace.nominalGap + (ds.sum + Trace.nominalGap * ds.length)) % m := by
        rw [Trace.afterLow, Nat.add_assoc, Nat.mod_add_mod]
      _ = (t + (d :: ds).sum + Trace.nominalGap * (d :: ds).length) % m := by
        rw [List.sum_cons, List.length_cons]; ring_nf

/-- The low time of nominal bit pulses: 600 µs each, 900 µs more for a 1. -/
theorem sum_map_nominalBit (bs : List Bool) :
    (bs.map Trace.nominalBit).sum = 600 * bs.length + 900 * bs.count true := by
  induction bs with
  | nil => rfl
  | cons x bs ih => cases x <;> simp [ih, Trace.nominalBit] <;> omega

/-- Settles O55: the durations are those of a transmission, the timestamps are cursors, and the cursor advances by the
low times and gaps. -/
theorem nominalFrameTransmits : Obligations.NominalFrameTransmits := by
  unfold Obligations.NominalFrameTransmits
  intro m t f _ ht
  refine ⟨⟨?_, lows_fall_lt ht _⟩, ?_⟩
  · rw [Trace.frame, lows_map_dur]
    exact frameDurations_transmits f
  · have hones : (frameBitList f).count true ≤ 56 := List.count_le_length
    rw [lows_cursor ht, Trace.frameDurations, List.sum_cons, sum_map_nominalBit, List.length_cons, List.length_map,
      frameBitList_length, Trace.nominalStart, Trace.nominalGap]
    congr 1
    omega

/-! ### A transmission is its durations (30_encoding.md R74) -/

/-- The block with `t0` at `c`. -/
def Block.withT0 (c : Nat) (b : Block) : Block := { b with t0 := c }

/-- The effect with `t0` at `c` in the block it leaves. -/
def Effect.withT0 (c : Nat) (e : Effect) : Effect := { e with block := e.block.withT0 c }

/-- The machine with `t0` at `c`. -/
def State.withT0 (c : Nat) (s : State) : State := { s with block := s.block.withT0 c }

/-- ACCEPT reads no timestamp. -/
theorem accept_withT0 (c : Nat) (x : Bool) (b : Block) : accept x (b.withT0 c) = (accept x b).withT0 c := by
  by_cases hbc : b.bc.val + 1 < 8
  · simp [accept, Block.withT0, Effect.withT0, hbc]
  · by_cases hbi : b.bi.val + 1 < 7
    · simp [accept, byteDone, Block.withT0, Effect.withT0, hbc, hbi]
    · cases hr : b.rdy <;> simp [accept, byteDone, frameDone, Block.withT0, Effect.withT0, hbc, hbi, hr]

/-- PULSE reads no timestamp: its duration is all it has of the line. -/
theorem pulse_withT0 (c d : Nat) (b : Block) : pulse d (b.withT0 c) = (pulse d b).withT0 c := by
  have hbit (x : Bool) : bitEffect x d (b.withT0 c) = (bitEffect x d b).withT0 c := by
    rw [bitEffect, accept_withT0]; rfl
  have hst : (b.withT0 c).st = b.st := rfl
  rw [pulse, pulse, hst]
  cases classify b.st d with
  | bit0 => exact hbit false
  | bit1 => exact hbit true
  | _ => rfl

/-- What one low pulse of `d` µs leaves when `t0` is left out of account. -/
def pulseAnytime (s : State) (d : Nat) : State :=
  bif s.block.en then s.commit (pulse (d % s.params.tsMod) { s.block with pend := false }) else s

/-- Without `t0`, the machine after a low pulse depends on its duration only, not on when it fell. -/
theorem lowPulse_withT0 {s : State} (p : LowPulse) (hm : 0 < s.params.tsMod) :
    (lowPulse s p).withT0 0 = pulseAnytime (s.withT0 0) p.dur := by
  cases he : s.block.en
  · have hen : (s.withT0 0).block.en = false := he
    rw [lowPulse_disabled p he, pulseAnytime, hen, cond_false]
  · have hen : (s.withT0 0).block.en = true := he
    rw [lowPulse_enabled p hm he, pulseAnytime, hen, cond_true]
    let d := p.dur % s.params.tsMod
    let b : Block := { s.block with pend := false }
    calc (s.commit (pulse d (b.withT0 p.fall))).withT0 0
      _ = (s.commit ((pulse d b).withT0 p.fall)).withT0 0 := by rw [pulse_withT0]
      _ = (s.withT0 0).commit ((pulse d b).withT0 0) := rfl
      _ = (s.withT0 0).commit (pulse d (b.withT0 0)) := by rw [pulse_withT0]

/-- Without `t0`, the machine after a list of low pulses depends on their durations only. -/
theorem foldl_lowPulse_withT0 (ps : List LowPulse) {s : State} (hm : 0 < s.params.tsMod) :
    (ps.foldl lowPulse s).withT0 0 = (ps.map LowPulse.dur).foldl pulseAnytime (s.withT0 0) := by
  induction ps generalizing s with
  | nil => rfl
  | cons p ps ih =>
    have hps : 0 < (lowPulse s p).params.tsMod := hm
    rw [List.foldl_cons, ih hps, lowPulse_withT0 p hm, List.map_cons, List.foldl_cons]

/-- Settles O28: both lists leave, but for `t0`, what their durations leave. -/
theorem highIntervalsCarryNothing : Obligations.HighIntervalsCarryNothing := by
  unfold Obligations.HighIntervalsCarryNothing
  intro ps qs s hm hdur
  refine ⟨_, _, exec_frame ps s, exec_frame qs s, ?_⟩
  calc (ps.foldl lowPulse s).withT0 0
    _ = (ps.map LowPulse.dur).foldl pulseAnytime (s.withT0 0) := foldl_lowPulse_withT0 ps hm
    _ = (qs.map LowPulse.dur).foldl pulseAnytime (s.withT0 0) := by rw [hdur]
    _ = (qs.foldl lowPulse s).withT0 0 := (foldl_lowPulse_withT0 qs hm).symm

/-! ### A transmission is its edges (30_encoding.md R73) -/

/-- A step performs the row of the event that stands first in the input. -/
theorem step_input_cons {s : State} {e : Event} {i : Instr} (rest : List Event)
    (hd : decode s.select (.event e) = .ok i) : step { s with input := e :: rest } = exec i { s with input := rest } :=
  step_event (s := { s with input := e :: rest }) rfl hd

/-- A step with a falling edge to come performs it. -/
theorem step_fall (s : State) {now : Nat} (rest : List Event) (hn : now < s.params.tsMod) :
    step { s with input := .fall now :: rest } =
      .next (({ s with input := rest } : State).commit (fallEffect now s.block)) :=
  step_input_cons (i := .edgeFall now) rest (if_pos hn)

/-- A step with a rising edge to come performs it, whichever of its two rows is selected. -/
theorem step_rise (s : State) {now : Nat} (rest : List Event) (hn : now < s.params.tsMod) :
    step { s with input := .rise now :: rest } =
      .next (({ s with input := rest } : State).commit (riseEffect s.params.tsMod now s.block)) := by
  cases hsel : s.block.en && s.block.pend
  · have hdecode : decode s.select (.event (.rise now)) = .ok (.edgeRiseSpurious now) := by simp [decode, hn, hsel]
    have hspurious : riseEffect s.params.tsMod now s.block = spuriousEffect s.block := by simp [riseEffect, hsel]
    rw [step_input_cons rest hdecode, hspurious]
    exact whenSelected_of _ (by simp [Instr.wf, hn]) (by simp [Instr.selected, State.select, hsel])
  · have hdecode : decode s.select (.event (.rise now)) = .ok (.edgeRise now) := by simp [decode, hn, hsel]
    exact step_input_cons rest hdecode

/-- A run whose first step answers a next state goes on from there. -/
theorem run_succ_of_step {s t : State} (k : Nat) (h : step s = .next t) :
    Host.Core.run core (k + 1) s = Host.Core.run core k t := by
  have hcore : core.step s = .next t := h
  simp only [Host.Core.run, hcore]

/-- Two steps perform the two edges of a low pulse that come next. -/
theorem run_edges_cons {s : State} {p : LowPulse} (rest : List Event) (k : Nat) (hm : 0 < s.params.tsMod)
    (hp : p.fall < s.params.tsMod) :
    Host.Core.run core (k + 2) { s with input := .fall p.fall :: .rise (riseAt s.params.tsMod p) :: rest } =
      Host.Core.run core k (lowPulse { s with input := rest } p) :=
  (run_succ_of_step (k + 1) (step_fall s _ hp)).trans
    (run_succ_of_step k (step_rise (s.commit (fallEffect p.fall s.block)) rest (Nat.mod_lt _ hm)))

/-- The events to come play no part in a low pulse. -/
theorem lowPulse_input (s : State) (p : LowPulse) (es : List Event) :
    lowPulse { s with input := es } p = { lowPulse s p with input := es } := rfl

/-- Settles O56: by induction on the pulses, two steps to each. -/
theorem transmissionIsItsEdges : Obligations.TransmissionIsItsEdges := by
  unfold Obligations.TransmissionIsItsEdges
  intro ps rest s hm hfall
  rw [exec_frame]
  induction ps generalizing s with
  | nil => rfl
  | cons p ps ih =>
    obtain ⟨hp, hps⟩ := List.forall_mem_cons.1 hfall
    rw [List.length_cons, Nat.mul_succ, Trace.edges, List.cons_append, List.cons_append, run_edges_cons _ _ hm hp,
      List.foldl_cons, lowPulse_input, lowPulse_input]
    exact ih (lowPulse s p) hm hps

/-! ### Words of trace text (30_encoding.md R72) -/

/-- A word whose bytes are the line of a name and its operands decodes to the operation they name. -/
theorem decodeTableWord_of_text {nbits w : Nat} (k : Trace.Keyword) (args : List (List Char)) {e : Event}
    (hw : wordBytes nbits w = Trace.textBytes (Trace.joinWords (k.spelling :: args)))
    (ha : ∀ a ∈ args, Trace.IsWord a) (hr : Trace.readOperation Config.tsModDefault 0 k args = some e)
    (hwf : e.operation.wf Config.tsModDefault = true) : decodeTableWord nbits w = some e.operation := by
  rw [decodeTableWord, hw, Trace.readLine_words _ _ k args e ha hr]
  exact if_pos hwf

/-- Settles O57: the four words are the lines of their operations, as the notation writes them. -/
theorem sampleWordsDecode : Obligations.SampleWordsDecode := by
  unfold Obligations.SampleWordsDecode
  refine ⟨?_, ?_, ?_, ?_⟩
  · exact decodeTableWord_of_text .fall [Trace.writeNat 1000] (e := .fall 1000) (by decide)
      (by simpa using Trace.writeNat_isWord 1000) (by simp [Trace.readOperation, Trace.readNat_writeNat]) (by decide)
  · exact decodeTableWord_of_text .rise [Trace.writeNat 9000] (e := .rise 9000) (by decide)
      (by simpa using Trace.writeNat_isWord 9000) (by simp [Trace.readOperation, Trace.readNat_writeNat]) (by decide)
  · exact decodeTableWord_of_text .avail [] (e := .avail) (by decide) (by simp) rfl rfl
  · exact decodeTableWord_of_text .take [] (e := .take) (by decide) (by simp) rfl rfl

end Sys2Proof.Machine
end

section
/-! PROOF. Edge capture (40_edge_capture.md): two falling edges in a row, the ignored rising edge, and a line whose
edges are not delivered. -/

namespace Sys2Proof.Machine

/-! ### The edge rows as their effects (40_edge_capture.md R81 to R83) -/

/-- An effect that only writes the block leaves everything else of the machine. -/
theorem State.commit_block_only (s : State) (b : Block) : s.commit { block := b } = { s with block := b } := by
  refine State.eq_of_fields ?_ ?_ ?_ ?_ ?_ ?_ <;> simp

theorem exec_edgeFall (now : Nat) (s : State) :
    exec (.edgeFall now) s = .next (s.commit (fallEffect now s.block)) := rfl

theorem exec_edgeRise (now : Nat) (s : State) :
    exec (.edgeRise now) s = .next (s.commit (riseEffect s.params.tsMod now s.block)) := rfl

/-! ### Two falling edges in a row (40_edge_capture.md R85) -/

/-- A falling edge delivered while a measurement is pending writes `t0` alone. -/
theorem fallEffect_pending {b : Block} (now : Nat) (he : b.en = true) (hp : b.pend = true) :
    fallEffect now b = { block := { b with t0 := now } } := by
  rw [fallEffect_enabled now he, ← hp]

/-- Settles O6: the second fall replaces `t0`, and the rise measures the one residue that leads from it. -/
theorem secondFallingEdgeReplacesFirst : Obligations.SecondFallingEdgeReplacesFirst := by
  unfold Obligations.SecondFallingEdgeReplacesFirst
  intro n1 n2 d s he hp hd hres
  constructor
  · rw [exec_edgeFall, fallEffect_pending n1 he hp, State.commit_block_only]
  · have hdur : lowDur s.params.tsMod n1 n2 = d := lowDur_eq hd hres
    rw [exec_edgeRise, riseEffect_measured (b := { s.block with t0 := n1 }) _ _ he hp, hdur]

/-! ### The ignored rising edge (40_edge_capture.md R82) -/

/-- A rising edge that is not measured is the ignored one. -/
theorem riseEffect_eq_spuriousEffect {b : Block} (m now : Nat) (h : b.en = false ∨ b.pend = false) :
    riseEffect m now b = spuriousEffect b := by
  rw [riseEffect, Bool.and_eq_false_iff.2 h]
  rfl

/-- Both rows that name an ignored rising edge perform it. -/
theorem exec_ignored_rise {i : Instr} {now : Nat} {s : State} (hn : now < s.params.tsMod)
    (hi : i = .edgeRise now ∨ i = .edgeRiseSpurious now) (h : s.block.en = false ∨ s.block.pend = false) :
    exec i s = .next (s.commit (spuriousEffect s.block)) := by
  obtain rfl | rfl := hi
  · rw [exec_edgeRise, riseEffect_eq_spuriousEffect _ _ h]
  · exact whenSelected_of _ (by simpa [Instr.wf] using hn) (by simpa [Instr.selected] using h)

/-- Settles O7: the ignored rising edge keeps the block and notes SpuriousEdge as `CFG.EN` says. -/
theorem spuriousRisingEdgeIgnored : Obligations.SpuriousRisingEdgeIgnored := by
  unfold Obligations.SpuriousRisingEdgeIgnored
  intro i now s hn hi h
  refine ⟨_, exec_ignored_rise hn hi h, rfl, rfl, rfl, ?_, fun he => ?_, fun he => ?_, fun hd => ?_⟩
  · exact List.append_nil _
  · simp [spuriousEffect, he]
  · simp [spuriousEffect, he]
  · exact commit_trace_of_debug_off hd _

/-! ### Edges not delivered (40_edge_capture.md R81, R82) -/

/-- Settles O27: no low pulse of the list changes a machine whose edges are not delivered. -/
theorem transmissionIgnoredWhenDisabled : Obligations.TransmissionIgnoredWhenDisabled := by
  unfold Obligations.TransmissionIgnoredWhenDisabled
  intro ps s he
  rw [exec_frame, List.foldl_fixed' (fun p => lowPulse_disabled p he)]

end Sys2Proof.Machine
end

section
/-! PROOF. The decoder (41_decoder_fsm.md): what each pulse operation leaves, whole transmissions from IDLE with the slot
free and full, and reception whatever the slot holds. -/

namespace Sys2Proof.Machine

/-! ### An accepted bit by its position (41_decoder_fsm.md R96 to R99) -/

/-- The eighth bit stands on top of the byte. -/
theorem shiftIn_seven (acc : Byte) (x : Bool) : shiftIn acc 7 x = acc ||| (if x then 0x80#8 else 0x00#8) := by
  cases x <;> rfl

/-- The bit is the power of two of its position (41_decoder_fsm.md R96). -/
theorem shiftIn_eq_ofNat (acc : Byte) (bc : Fin 8) (x : Bool) :
    shiftIn acc bc x = acc ||| BitVec.ofNat 8 ((if x then 1 else 0) * 2 ^ bc.val) := by
  have hbit : ∀ (k : Fin 8) (y : Bool),
      (if y then 1#8 else 0#8) <<< k.val = BitVec.ofNat 8 ((if y then 1 else 0) * 2 ^ k.val) := by
    decide
  rw [shiftIn, hbit]

/-- The block after the last bit of `f`: W is `f`, a free slot takes it, the decoder is IDLE with no partial frame. -/
def Block.frameEnd (f : Frame) (b : Block) : Block :=
  { b with st := .idle, bi := 0, bc := 0, acc := 0, W := f, F := if b.rdy then b.F else f, rdy := true }

/-- What the last bit of a frame notes: Overrun, when the slot is full. -/
def Block.frameEndNote (b : Block) : Option ErrorClass := if b.rdy then some .overrun else none

/-- A bit before the eighth is placed in the accumulator. -/
theorem accept_place {b : Block} (x : Bool) (h : b.bc.val + 1 < 8) :
    accept x b = { block := { b with acc := shiftIn b.acc b.bc x, bc := ⟨b.bc.val + 1, h⟩ } } := by
  obtain ⟨_, hx⟩ | ⟨h7, -⟩ := accept_cases x b
  · exact hx
  · omega

/-- The eighth bit of a byte before the seventh stores that byte. -/
theorem accept_store {b : Block} (x : Bool) (h7 : b.bc = 7) (h : b.bi.val < 6) :
    accept x b =
      { block := { b with W := memWrite b.W b.bi (shiftIn b.acc 7 x), acc := 0, bc := 0, bi := b.bi + 1 } } := by
  have hbc : b.bc.val = 7 := congrArg Fin.val h7
  obtain ⟨_, -⟩ | ⟨-, hlt, hx⟩ | ⟨-, h6, -⟩ | ⟨-, h6, -⟩ := accept_block_cases x b
  · omega
  · have hbi : (⟨b.bi.val + 1, hlt⟩ : Fin 7) = b.bi + 1 := Fin.ext (Fin.val_add_one_of_lt' hlt).symm
    rw [hx, hbi, h7]
  · omega
  · omega

/-- The 56th bit ends the frame whose seventh byte it completes. -/
theorem accept_frameEnd {b : Block} (x : Bool) (h7 : b.bc = 7) (h6 : b.bi = 6) :
    (accept x b).block = b.frameEnd (memWrite b.W 6 (shiftIn b.acc 7 x)) ∧
      (accept x b).note = b.frameEndNote ∧ (accept x b).result = none := by
  have hbc : b.bc.val = 7 := congrArg Fin.val h7
  have hbi : b.bi.val = 6 := congrArg Fin.val h6
  obtain ⟨_, -⟩ | ⟨-, _, -⟩ | ⟨-, -, hr, hx⟩ | ⟨-, -, hr, hx⟩ := accept_block_cases x b
  · omega
  · omega
  · simp [hx, h7, h6, hr, Block.frameEnd, Block.frameEndNote]
  · simp [hx, h7, h6, hr, Block.frameEnd, Block.frameEndNote]

/-- A bit before the 56th leaves the slot alone and notes nothing. -/
theorem accept_before_last {b : Block} (x : Bool) (h : b.position < 55) :
    (accept x b).block.F = b.F ∧ (accept x b).block.rdy = b.rdy ∧ (accept x b).note = none := by
  rw [Block.position] at h
  obtain ⟨_, hx⟩ | ⟨-, _, hx⟩ | ⟨h7, h6, -⟩ | ⟨h7, h6, -⟩ := accept_block_cases x b
  · simp [hx]
  · simp [hx]
  · omega
  · omega

/-! ### The pulse operations (41_decoder_fsm.md R92 to R101, R105) -/

/-- An effect that writes the block and emits records appends them when the debug mode is on. -/
theorem State.commit_emits (s : State) (b : Block) (l : List TraceRecord) :
    s.commit { block := b, emits := l } =
      { s with block := b, trace := if s.block.debug then s.trace ++ l else s.trace } := by
  refine State.eq_of_fields rfl rfl rfl ?_ ?_ ?_
  · simp
  · simp
  · cases hdebug : s.block.debug <;> simp [hdebug]

/-- Settles O12: P_START is selected, and its effect is the zeroed partial frame in RECEIVING and one record. -/
theorem startMarkerEntersReceiving : Obligations.StartMarkerEntersReceiving := by
  unfold Obligations.StartMarkerEntersReceiving
  intro d s hst hlo hhi hd
  have hexec : exec (.pStart d) s = .next (s.commit (startEffect d s.block)) :=
    whenSelected_of _ (by simp [Instr.wf, hd, classify_idle_start.2 ⟨hlo, hhi⟩]) (by simp [Instr.selected, hst])
  rw [hexec, startEffect, State.commit_emits]
  rfl

/-- Settles O13: P_IDLE_IGNORE is selected, and its effect is none. -/
theorem idlePulseIgnored : Obligations.IdlePulseIgnored := by
  unfold Obligations.IdlePulseIgnored
  intro d s hst hband hd
  have hexec : exec (.pIdleIgnore d) s = .next (s.commit (ignoreEffect s.block)) :=
    whenSelected_of _ (by simp [Instr.wf, hd, classify_idle_ignored.2 hband]) (by simp [Instr.selected, hst])
  rw [ignoreEffect, State.commit_nothing] at hexec
  exact ⟨s, hexec, rfl, rfl, rfl, rfl, rfl, fun _ => rfl⟩

/-- Settles O18: P_ABORT is selected, and its effect is the zeroed partial frame in IDLE and one note. -/
theorem abortDiscardsPartialFrame : Obligations.AbortDiscardsPartialFrame := by
  unfold Obligations.AbortDiscardsPartialFrame
  intro d s hst hband hd
  have hexec : exec (.pAbort d) s = .next (s.commit (abortEffect d s.block)) :=
    whenSelected_of _ (by simp [Instr.wf, hd, classify_receiving_violation.2 hband]) (by simp [Instr.selected, hst])
  exact ⟨_, hexec, rfl, rfl, rfl, List.append_nil _, rfl, fun hdebug => commit_trace_of_debug_off hdebug _⟩

/-- PULSE of a violation, in RECEIVING. -/
theorem pulse_violation {d : Nat} {b : Block} (hst : b.st = .receiving) (hd : (900 ≤ d ∧ d ≤ 1199) ∨ 2001 ≤ d) :
    pulse d b = abortEffect d b := by
  simp [pulse, hst, classify_receiving_violation.2 hd]

/-- Settles O19: the measured duration is `d`, a violation in RECEIVING. -/
theorem deadZoneReturnsToIdle : Obligations.DeadZoneReturnsToIdle := by
  unfold Obligations.DeadZoneReturnsToIdle
  intro now d s he hp hst hlo hhi hd hres
  have hpulse : riseEffect s.params.tsMod now s.block = abortEffect d { s.block with pend := false } := by
    rw [riseEffect_measured _ _ he hp, lowDur_eq hd hres]
    exact pulse_violation hst (.inl ⟨hlo, hhi⟩)
  refine ⟨_, exec_edgeRise now s, ?_⟩
  rw [hpulse]
  exact ⟨rfl, rfl, rfl⟩

/-- Settles O14: the bit is placed in the accumulator, and the bit's record is the only one. -/
theorem bitPulseShiftsBitIn : Obligations.BitPulseShiftsBitIn := by
  unfold Obligations.BitPulseShiftsBitIn
  intro x d s hst hc hd h
  rw [exec_bitRow hst hc hd, bitEffect, accept_place x h, shiftIn_eq_ofNat, State.commit_emits]

/-- Settles O15: the eighth bit stores the byte it stands on top of. -/
theorem eighthBitStoresByte : Obligations.EighthBitStoresByte := by
  unfold Obligations.EighthBitStoresByte
  intro x d s hst hc hd h7 h6
  refine ⟨_, exec_bitRow hst hc hd, ?_⟩
  rw [bitEffect, accept_store x h7 h6]
  refine ⟨?_, fun i hi => memRead_memWrite_other _ _ hi, rfl, rfl, rfl, List.append_nil _, List.append_nil _⟩
  rw [State.commit_block, memRead_memWrite_same, shiftIn_seven]

/-- What the 56th bit leaves in W, in the block and in the streams, whatever the slot holds. -/
theorem exec_bitRow_last {x : Bool} {d : Nat} {s : State} (hst : s.block.st = .receiving) (hc : Carries x d)
    (hd : d < s.params.tsMod) (h7 : s.block.bc = 7) (h6 : s.block.bi = 6) :
    ∃ t, exec (bitRow x d) s = .next t ∧
      memRead t.block.W 6 = s.block.acc ||| (if x then 0x80#8 else 0x00#8) ∧
      (∀ i, i ≠ 6 → memRead t.block.W i = memRead s.block.W i) ∧ t.block = s.block.frameEnd t.block.W ∧
      t.params = s.params ∧ t.input = s.input ∧ t.results = s.results ∧
      t.notes = s.notes ++ s.block.frameEndNote.toList := by
  obtain ⟨hblock, hnote, hresult⟩ := accept_frameEnd x h7 h6
  have hW : (s.commit (bitEffect x d s.block)).block.W = memWrite s.block.W 6 (shiftIn s.block.acc 7 x) :=
    congrArg Block.W hblock
  refine ⟨_, exec_bitRow hst hc hd, ?_, fun i hi => ?_, ?_, rfl, rfl, ?_, ?_⟩
  · rw [hW, memRead_memWrite_same, shiftIn_seven]
  · rw [hW, memRead_memWrite_other _ _ hi]
  · rw [hW]; exact hblock
  · simp [bitEffect, hresult]
  · simp [bitEffect, hnote]

/-- Settles O16: the 56th bit ends the frame, which the free slot takes. -/
theorem lastBitPublishesFrame : Obligations.LastBitPublishesFrame := by
  unfold Obligations.LastBitPublishesFrame
  intro x d s hst hc hd h7 h6 hrdy
  obtain ⟨t, ht, hlast, hothers, hblock, hparams, hinput, hresults, hnotes⟩ := exec_bitRow_last hst hc hd h7 h6
  refine ⟨t, ht, hlast, hothers, ?_, hparams, hinput, hresults, ?_⟩
  · simpa [Block.frameEnd, hrdy] using hblock
  · simpa [Block.frameEndNote, hrdy] using hnotes

/-- Settles O17: the 56th bit ends the frame, which the full slot does not take. -/
theorem lastBitOverrunDropsFrame : Obligations.LastBitOverrunDropsFrame := by
  unfold Obligations.LastBitOverrunDropsFrame
  intro x d s hst hc hd h7 h6 hrdy
  obtain ⟨t, ht, hlast, hothers, hblock, hparams, hinput, hresults, hnotes⟩ := exec_bitRow_last hst hc hd h7 h6
  refine ⟨t, ht, hlast, hothers, ?_, hparams, hinput, hresults, ?_⟩
  · simpa [Block.frameEnd, hrdy] using hblock
  · simpa [Block.frameEndNote, hrdy] using hnotes

/-! ### A whole transmission (41_decoder_fsm.md R99, R104) -/

/-- The machine `t` that the low pulses `ps` lead to from `s` when they end the frame `f`. -/
structure EndsFrame (f : Frame) (ps : List LowPulse) (s t : State) : Prop where
  block   : t.block = ({ s.block with pend := false, t0 := lastFall s.block.t0 ps } : Block).frameEnd f
  params  : t.params = s.params
  input   : t.input = s.input
  results : t.results = s.results
  notes   : t.notes = s.notes ++ s.block.frameEndNote.toList

section LowPulses

variable {s : State} {p : LowPulse}

/-- One low pulse shorter than the modulus: its duration is classified. -/
theorem lowPulse_of_lt (he : s.block.en = true) (hd : p.dur < s.params.tsMod) :
    lowPulse s p = s.commit (pulse p.dur { s.block with t0 := p.fall, pend := false }) := by
  rw [lowPulse_enabled p (by omega) he, Nat.mod_eq_of_lt hd]

/-- A low pulse that carries a bit, in RECEIVING. -/
theorem lowPulse_bit {x : Bool} (he : s.block.en = true) (hst : s.block.st = .receiving) (hc : Carries x p.dur)
    (hd : p.dur < s.params.tsMod) :
    lowPulse s p = s.commit (bitEffect x p.dur { s.block with t0 := p.fall, pend := false }) := by
  rw [lowPulse_of_lt he hd, pulse_bit (b := { s.block with t0 := p.fall, pend := false }) hst hc]

/-- A low pulse that is a start marker, in IDLE. -/
theorem lowPulse_start (he : s.block.en = true) (hst : s.block.st = .idle) (hc : isStart p.dur = true)
    (hd : p.dur < s.params.tsMod) :
    lowPulse s p = s.commit (startEffect p.dur { s.block with t0 := p.fall, pend := false }) := by
  rw [lowPulse_of_lt he hd, pulse, hst, classify_idle_start.2 (isStart_iff.1 hc)]

/-- A frame ended after a low pulse that leaves the slot alone and notes nothing is one ended from before it. -/
theorem EndsFrame.cons {f : Frame} {ps : List LowPulse} {t : State} (h : EndsFrame f ps (lowPulse s p) t)
    (ht0 : (lowPulse s p).block.t0 = p.fall) (hF : (lowPulse s p).block.F = s.block.F)
    (hrdy : (lowPulse s p).block.rdy = s.block.rdy) (hnotes : (lowPulse s p).notes = s.notes) :
    EndsFrame f (p :: ps) s t := by
  obtain ⟨hen, hunit, hdebug, hparams, hinput, hresults, -⟩ := edgeKeeps_lowPulse s p
  refine ⟨?_, h.params.trans hparams, h.input.trans hinput, h.results.trans hresults, ?_⟩
  · simp [h.block, Block.frameEnd, lastFall, ht0, hF, hrdy, hen, hunit, hdebug]
  · simp [h.notes, Block.frameEndNote, hrdy, hnotes]

theorem endsFrame_last {x : Bool} {bs : List Bool} (he : s.block.en = true) (hr : s.block.HasReceived bs)
    (hlen : bs.length = 55) (hc : Carries x p.dur) (hd : p.dur < s.params.tsMod) :
    EndsFrame (packFrame (bs ++ [x])) [p] s (lowPulse s p) := by
  have hpos := hr.length_eq
  have h7 : s.block.bc = 7 := Fin.ext (by omega)
  have h6 : s.block.bi = 6 := Fin.ext (by omega)
  have hW : memWrite s.block.W 6 (shiftIn s.block.acc 7 x) = packFrame (bs ++ [x]) := by
    rw [← hr.store_last x (congrArg Fin.val h6), h6, h7]
  obtain ⟨hblock, hnote, hresult⟩ := accept_frameEnd (b := { s.block with t0 := p.fall, pend := false }) x h7 h6
  rw [lowPulse_bit he hr.receiving hc hd, ← hW]
  refine ⟨hblock, rfl, rfl, ?_, ?_⟩
  · simp [bitEffect, hresult]
  · simp [bitEffect, hnote, Block.frameEndNote]

end LowPulses

/-- The pulses that carry the bits still missing end the frame that all 56 bits spell. -/
theorem endsFrame_bits {ps : List LowPulse} {bs rest : List Bool} {s : State} (he : s.block.en = true)
    (hm : 10000 < s.params.tsMod) (hr : s.block.HasReceived bs) (hlt : bs.length < 56)
    (hc : List.Forall₂ (fun p x => Carries x p.dur) ps rest) (hlen : bs.length + rest.length = 56) :
    EndsFrame (packFrame (bs ++ rest)) ps s (ps.foldl lowPulse s) := by
  induction hc generalizing bs s with
  | nil => simp at hlen; omega
  | @cons p x ps rest hx hrest ih =>
    have hd : p.dur < s.params.tsMod := (Carries.le hx).trans_lt (by omega)
    rw [List.length_cons] at hlen
    by_cases hlast : bs.length = 55
    · obtain rfl : rest = [] := List.length_eq_zero_iff.1 (by omega)
      cases hrest
      exact endsFrame_last he hr hlast hx hd
    · have hpos : s.block.position < 55 := by rw [← hr.2.1]; omega
      let b : Block := { s.block with t0 := p.fall, pend := false }
      obtain ⟨hF, hrdy, hnote⟩ := accept_before_last (b := b) x hpos
      obtain ⟨-, ht0, hen, -⟩ := accept_keeps x b
      have hp := lowPulse_bit he hr.receiving hx hd
      have hnext : (lowPulse s p).block.HasReceived (bs ++ [x]) := by
        rw [hp]; exact accept_hasReceived (b := b) x hr (by omega)
      have hend := ih (s := lowPulse s p) (bs := bs ++ [x]) (by rw [hp]; exact hen.trans he) hm hnext
        (by simp; omega) (by simp; omega)
      rw [List.append_assoc, List.singleton_append] at hend
      exact hend.cons (by rw [hp]; exact ht0) (by rw [hp]; exact hF) (by rw [hp]; exact hrdy)
        (by simp [hp, bitEffect, b, hnote])

/-- A well-formed transmission of `f` met in IDLE ends the frame `f`. -/
theorem endsFrame_of_transmits {f : Frame} {ps : List LowPulse} {s : State} (ht : Transmits f (ps.map LowPulse.dur))
    (hm : 10000 < s.params.tsMod) (he : s.block.en = true) (hst : s.block.st = .idle) :
    EndsFrame f ps s (ps.foldl lowPulse s) := by
  cases ps with
  | nil => simp [Transmits] at ht
  | cons p ps =>
    obtain ⟨hstart, hbits⟩ := transmits_cons_iff.1 ht
    have hp := lowPulse_start he hst hstart ((isStart_iff.1 hstart).2.trans_lt hm)
    have hnext : (lowPulse s p).block.HasReceived [] := by rw [hp]; exact startEffect_hasReceived p.dur _
    have hend := endsFrame_bits (s := lowPulse s p) (by rw [hp]; exact he) hm hnext (by simp)
      (List.forall₂_map_left_iff.1 hbits) (by simp)
    rw [List.nil_append, packFrame_frameBitList] at hend
    exact hend.cons (by rw [hp]; rfl) (by rw [hp]; rfl) (by rw [hp]; rfl) (by rw [hp]; simp [startEffect])

/-- TAKE returns what F holds. -/
theorem exec_take_results (s : State) :
    ∃ u, exec .take s = .next u ∧ u.results = s.results ++ [.bytes s.block.F] := ⟨_, rfl, rfl⟩

/-- VALIDATE returns whether byte 6 is the sum of the others. -/
theorem exec_validate_results (f : Frame) (s : State) :
    ∃ v, exec (.validate f) s = .next v ∧ v.results = s.results ++
      [.bit (decide (f[6].toNat =
        (f[0].toNat + f[1].toNat + f[2].toNat + f[3].toNat + f[4].toNat + f[5].toNat) % 256))] := by
  refine ⟨_, rfl, ?_⟩
  simp [checksumValid, cksum, eq_comm]

/-- Settles O24: the transmission ends the frame `f`, which the free slot takes. -/
theorem transmissionDelivered : Obligations.TransmissionDelivered := by
  unfold Obligations.TransmissionDelivered
  intro f ps s ht hok he hst hrdy
  have hend := endsFrame_of_transmits ht.1 hok.1 he hst
  obtain ⟨u, hu, hur⟩ := exec_take_results (ps.foldl lowPulse s)
  have hF : (ps.foldl lowPulse s).block.F = f := by simp [hend.block, Block.frameEnd, hrdy]
  refine ⟨_, exec_frame ps s, ?_, hend.params, hend.input, hend.results, ?_, ⟨u, hu, hF ▸ hur⟩,
    exec_validate_results f _⟩
  · simp [hend.block, Block.frameEnd, hrdy, hst]
  · simp [hend.notes, Block.frameEndNote, hrdy]

/-- Settles O25: the transmission ends the frame `f`, which the full slot does not take. -/
theorem secondTransmissionDropped : Obligations.SecondTransmissionDropped := by
  unfold Obligations.SecondTransmissionDropped
  intro f ps s ht hok he hst hrdy
  have hend := endsFrame_of_transmits ht.1 hok.1 he hst
  obtain ⟨u, hu, hur⟩ := exec_take_results (ps.foldl lowPulse s)
  have hF : (ps.foldl lowPulse s).block.F = s.block.F := by simp [hend.block, Block.frameEnd, hrdy]
  refine ⟨_, exec_frame ps s, ?_, hend.params, hend.input, hend.results, ?_, ⟨u, hu, hF ▸ hur⟩⟩
  · simp [hend.block, Block.frameEnd, hrdy, hst]
  · simp [hend.notes, Block.frameEndNote, hrdy]

/-! ### Reception whatever the slot holds (41_decoder_fsm.md R100) -/

/-- The block with `r` in `rdy` and `g` in F. -/
def Block.withSlot (r : Bool) (g : Frame) (b : Block) : Block := { b with rdy := r, F := g }

/-- The two blocks differ in `rdy` and F at most. -/
def SameButSlot (b c : Block) : Prop := ∃ r g, c = b.withSlot r g

theorem SameButSlot.sameReception {b c : Block} (h : SameButSlot b c) : b.SameReception c := by
  obtain ⟨r, g, rfl⟩ := h
  exact ⟨rfl, rfl, rfl, rfl, rfl, rfl, rfl⟩

/-- ACCEPT reads the slot only to decide what becomes of it. -/
theorem accept_sameButSlot (x : Bool) {b c : Block} (h : SameButSlot b c) :
    SameButSlot (accept x b).block (accept x c).block := by
  obtain ⟨r, g, rfl⟩ := h
  by_cases hbc : b.bc.val + 1 < 8
  · rw [accept_place x hbc, accept_place (b := b.withSlot r g) x hbc]
    exact ⟨r, g, rfl⟩
  · have h7 : b.bc = 7 := Fin.ext (by omega)
    by_cases hbi : b.bi.val < 6
    · rw [accept_store x h7 hbi, accept_store (b := b.withSlot r g) x h7 hbi]
      exact ⟨r, g, rfl⟩
    · have h6 : b.bi = 6 := Fin.ext (by omega)
      rw [(accept_frameEnd x h7 h6).1, (accept_frameEnd (b := b.withSlot r g) x h7 h6).1]
      exact ⟨_, _, rfl⟩

theorem pulse_sameButSlot (d : Nat) {b c : Block} (h : SameButSlot b c) :
    SameButSlot (pulse d b).block (pulse d c).block := by
  have hst : c.st = b.st := h.sameReception.1
  rw [pulse, pulse, hst]
  cases classify b.st d with
  | bit0 => exact accept_sameButSlot false h
  | bit1 => exact accept_sameButSlot true h
  | _ =>
    obtain ⟨r, g, rfl⟩ := h
    exact ⟨r, g, rfl⟩

theorem fallEffect_sameButSlot (now : Nat) {b c : Block} (h : SameButSlot b c) :
    SameButSlot (fallEffect now b).block (fallEffect now c).block := by
  obtain ⟨r, g, rfl⟩ := h
  refine ⟨r, g, ?_⟩
  cases he : b.en <;> simp [fallEffect, Block.withSlot, he]

theorem riseEffect_sameButSlot (m now : Nat) {b c : Block} (h : SameButSlot b c) :
    SameButSlot (riseEffect m now b).block (riseEffect m now c).block := by
  obtain ⟨r, g, rfl⟩ := h
  obtain ⟨he, hr⟩ | ⟨he, hp, hr⟩ | ⟨he, hp, hr⟩ := riseEffect_cases m now b <;> rw [hr]
  · rw [riseEffect_disabled (b := b.withSlot r g) m now he]
    exact ⟨r, g, rfl⟩
  · rw [riseEffect_spurious (b := b.withSlot r g) m now he hp]
    exact ⟨r, g, rfl⟩
  · rw [riseEffect_measured (b := b.withSlot r g) m now he hp]
    exact pulse_sameButSlot _ ⟨r, g, rfl⟩

theorem rowEffect_sameButSlot (i : Instr) (p : Params) {b c : Block} (h : SameButSlot b c) :
    SameButSlot (rowEffect i p b).block (rowEffect i p c).block := by
  cases i with
  | edgeFall now => exact fallEffect_sameButSlot now h
  | edgeRise now => exact riseEffect_sameButSlot p.tsMod now h
  | pBit0 d => exact accept_sameButSlot false h
  | pBit1 d => exact accept_sameButSlot true h
  | _ =>
    obtain ⟨r, g, rfl⟩ := h
    exact ⟨_, _, rfl⟩

theorem lowPulse_sameButSlot {s u : State} (p : LowPulse) (hp : u.params = s.params)
    (h : SameButSlot s.block u.block) : SameButSlot (lowPulse s p).block (lowPulse u p).block := by
  have hrise := riseEffect_sameButSlot s.params.tsMod (riseAt s.params.tsMod p) (fallEffect_sameButSlot p.fall h)
  simpa only [lowPulse, State.commit_params, State.commit_block, hp] using hrise

theorem foldl_lowPulse_sameButSlot (ps : List LowPulse) {s u : State} (hp : u.params = s.params)
    (h : SameButSlot s.block u.block) :
    SameButSlot (ps.foldl lowPulse s).block (ps.foldl lowPulse u).block := by
  induction ps generalizing s u with
  | nil => exact h
  | cons p ps ih => exact ih hp (lowPulse_sameButSlot p hp h)

/-- Settles O47: every row, and every pulse of a FRAME, leaves blocks that differ in the slot only. -/
theorem receptionIgnoresReadyFlag : Obligations.ReceptionIgnoresReadyFlag := by
  unfold Obligations.ReceptionIgnoresReadyFlag
  intro i s t r g _ ht
  let u : State := { s with block := { s.block with rdy := r, F := g } }
  have hslot : SameButSlot s.block u.block := ⟨r, g, rfl⟩
  obtain ⟨ps, rfl⟩ | hi := frame_or_ne_frame i
  · cases ht
    exact ⟨_, exec_frame ps u, (foldl_lowPulse_sameButSlot ps (s := s) (u := u) rfl hslot).sameReception⟩
  · obtain ⟨ha, rfl⟩ := (exec_next_iff hi).1 ht
    exact ⟨_, (exec_next_iff hi).2 ⟨ha, rfl⟩, (rowEffect_sameButSlot i s.params hslot).sameReception⟩

end Sys2Proof.Machine
end

section
/-! PROOF. The consumer operations (42_consumer_ops.md): what AVAIL and TAKE leave, and AVAIL repeated, after any other
operation and after TAKE. -/

namespace Sys2Proof.Machine

/-! ### AVAIL and TAKE as whole next states (42_consumer_ops.md R110, R111) -/

/-- An effect that writes the block and delivers a result leaves everything else of the machine. -/
theorem State.commit_delivers (s : State) (b : Block) (r : Result) :
    s.commit { block := b, result := some r } = { s with block := b, results := s.results ++ [r] } := by
  refine State.eq_of_fields ?_ ?_ ?_ ?_ ?_ ?_ <;> simp

/-- Settles O30: AVAIL delivers `rdy` and takes over the block as it is. -/
theorem availReturnsReady : Obligations.AvailReturnsReady := by
  unfold Obligations.AvailReturnsReady
  intro s
  exact congrArg Host.Outcome.next (s.commit_delivers s.block (.bit s.block.rdy))

/-- Settles O31: TAKE delivers F and takes over the block with `rdy` cleared. -/
theorem takeReturnsFrameAndClearsReady : Obligations.TakeReturnsFrameAndClearsReady := by
  unfold Obligations.TakeReturnsFrameAndClearsReady
  intro s
  exact congrArg Host.Outcome.next (s.commit_delivers { s.block with rdy := false } (.bytes s.block.F))

/-! ### AVAIL in a row and after other operations (42_consumer_ops.md R114) -/

/-- AVAIL delivers the ready flag of the state it is performed in. -/
theorem exec_avail_results {s : State} {r : Bool} (h : s.block.rdy = r) :
    ∃ u, exec .avail s = .next u ∧ u.results = s.results ++ [.bit r] := by
  subst h
  exact ⟨_, availReturnsReady s, rfl⟩

/-- A step with an AVAIL to come delivers the ready flag. -/
theorem step_avail (s : State) (rest : List Event) :
    step { s with input := .avail :: rest } =
      .next { s with input := rest, results := s.results ++ [.bit s.block.rdy] } :=
  (step_input_cons (i := .avail) rest rfl).trans (availReturnsReady { s with input := rest })

/-- As many steps as there are AVAILs to come deliver the ready flag that often. -/
theorem run_avails (n : Nat) (rest : List Event) (s : State) :
    Host.Core.run core n { s with input := List.replicate n .avail ++ rest } =
      .next { s with input := rest, results := s.results ++ List.replicate n (.bit s.block.rdy) } := by
  induction n generalizing s with
  | zero => simp [Host.Core.run]
  | succ n ih =>
    rw [List.replicate_succ, List.cons_append, run_succ_of_step n (step_avail s _)]
    simpa [List.replicate_succ] using ih { s with results := s.results ++ [.bit s.block.rdy] }

/-- Settles O32: repeated AVAILs by induction on their number; `rdy = 1` survives every operation but TAKE and RESET;
TAKE leaves `rdy = 0`. -/
theorem availIdempotentAndFalseAfterTake : Obligations.AvailIdempotentAndFalseAfterTake := by
  unfold Obligations.AvailIdempotentAndFalseAfterTake
  refine ⟨run_avails, ?kept, ?afterTake⟩
  case kept =>
    intro i s t ht htake hreset hrdy
    obtain ⟨hkept, -⟩ := readyFrameStableUntilTake i s t ht htake hreset hrdy
    exact exec_avail_results hkept
  case afterTake =>
    intro s
    obtain ⟨u, hu, hres⟩ := exec_avail_results
      (s := { s with block := { s.block with rdy := false }, results := s.results ++ [.bytes s.block.F] }) rfl
    exact ⟨_, u, takeReturnsFrameAndClearsReady s, hu, hres⟩

end Sys2Proof.Machine
end

section
/-! PROOF. The frame interpreter (43_frame_interpreter.md): VALIDATE as a sum in byte arithmetic and what one or two
changed bytes do to it, the two cubics and their integer form, TEMP and its branch rows as whole next states. -/

namespace Sys2Proof.Machine

/-! ### VALIDATE as a whole next state (43_frame_interpreter.md R121) -/

/-- VALIDATE takes over the block as it is, with the result bit and the note that the bit decides. -/
theorem exec_validate (f : Frame) (s : State) :
    exec (.validate f) s = .next { s with
      results := s.results ++ [.bit (checksumValid f)]
      notes := if checksumValid f then s.notes else s.notes ++ [.checksumMismatch] } := by
  refine congrArg Host.Outcome.next (State.eq_of_fields rfl rfl rfl rfl ?notes ?trace)
  case notes => cases checksumValid f <;> simp
  case trace => simp

/-- Settles O35: the test VALIDATE delivers is that of the spelled-out sum. -/
theorem validateComparesSum : Obligations.ValidateComparesSum := by
  unfold Obligations.ValidateComparesSum
  exact exec_validate

/-- VALIDATE of a frame answers the checksum test, from every state. -/
theorem answers_validate_iff {f : Frame} {r : Bool} :
    Answers (.validate f) (.bit r) ↔ checksumValid f = r := by
  constructor
  · intro h
    obtain ⟨t, ht, hres, -⟩ := h State.reset
    rw [exec_validate] at ht
    cases ht
    simpa using hres
  · rintro rfl s
    exact ⟨_, exec_validate f s, rfl, rfl⟩

/-! ### The checksum in byte arithmetic (30_encoding.md R65) -/

/-- The sum of the six payload bytes, as a byte. -/
def payloadSum (f : Frame) : Byte := f[0] + f[1] + f[2] + f[3] + f[4] + f[5]

theorem payloadSum_toNat (f : Frame) : (payloadSum f).toNat = cksum f := by simp [payloadSum, cksum]

theorem checksumValid_iff_payloadSum {f : Frame} : checksumValid f = true ↔ payloadSum f = f[6] := by
  rw [checksumValid_iff, ← payloadSum_toNat, BitVec.toNat_inj]

/-- A new payload byte changes the sum by the difference of the two bytes. -/
theorem payloadSum_set (f : Frame) {i : Fin 7} (hi : i.val < 6) (v : Byte) :
    payloadSum (f.set i v) = payloadSum f + (v - f[i]) := by
  obtain ⟨i, h7⟩ := i
  simp only at hi
  interval_cases i <;> simp [payloadSum] <;> ring

@[simp] theorem payloadSum_set_six (f : Frame) (v : Byte) : payloadSum (f.set 6 v) = payloadSum f := by
  simp [payloadSum]

/-- A change of payload bytes that keeps their sum keeps the result of the test. -/
theorem checksumValid_congr {f g : Frame} (hsum : payloadSum g = payloadSum f) (h6 : g[6] = f[6]) :
    checksumValid g = checksumValid f := by
  rw [Bool.eq_iff_iff, checksumValid_iff_payloadSum, checksumValid_iff_payloadSum, hsum, h6]

/-- A valid frame with one byte replaced by a different one is not valid. -/
theorem checksumValid_set_of_ne {f : Frame} {i : Fin 7} {v : Byte} (h : checksumValid f = true) (hv : v ≠ f[i]) :
    checksumValid (f.set i v) = false := by
  rw [checksumValid_iff_payloadSum] at h
  rw [← Bool.not_eq_true, checksumValid_iff_payloadSum]
  by_cases hi : i.val < 6
  · rw [payloadSum_set f hi, h, Vector.getElem_set_ne _ _ (by omega), add_eq_left, sub_eq_zero]
    exact hv
  · obtain rfl : i = 6 := by omega
    simpa [h] using hv.symm

/-! ### One bit of a byte flipped -/

/-- Flipping a bit that is 0 adds its weight. -/
theorem xor_twoPow_of_clear {w : Nat} {x : BitVec w} {k : Nat} (h : x.getLsbD k = false) :
    x ^^^ BitVec.twoPow w k = x + BitVec.twoPow w k := by
  have hand : x &&& BitVec.twoPow w k = 0#w := by simp [BitVec.and_twoPow, h]
  rw [BitVec.add_eq_or_of_and_eq_zero _ _ hand]
  ext j hj
  by_cases hjk : j = k
  · subst hjk
    simp [← BitVec.getLsbD_eq_getElem, h]
  · simp [hjk]

/-- Flipping a bit that is 1 subtracts its weight. -/
theorem xor_twoPow_of_set {w : Nat} {x : BitVec w} {k : Nat} (h : x.getLsbD k = true) :
    x ^^^ BitVec.twoPow w k = x - BitVec.twoPow w k := by
  have hk : k < w := BitVec.lt_of_getLsbD h
  have hclear : (x ^^^ BitVec.twoPow w k).getLsbD k = false := by simp [h, hk]
  have hback := xor_twoPow_of_clear hclear
  rw [BitVec.xor_assoc, BitVec.xor_self, BitVec.xor_zero] at hback
  exact eq_sub_of_add_eq hback.symm

theorem flipBit_eq_set (f : Frame) (i : Fin 7) (k : Fin 8) :
    flipBit f i k = f.set i (f[i] ^^^ BitVec.twoPow 8 k) := by
  rw [flipBit, BitVec.twoPow_eq]

/-- A flipped bit changes its byte. -/
theorem xor_twoPow_ne (x : Byte) (k : Fin 8) : x ^^^ BitVec.twoPow 8 k ≠ x := by
  intro h
  have := congrArg (fun y => y.getLsbD k) h
  simp at this

/-! ### What the checksum detects and what it misses (43_frame_interpreter.md R122) -/

/-- Settles O36: the sum stored in byte 6 is that of the payload it leaves; a flipped bit is one changed byte. -/
theorem checksumDetectsSingleBitErrors : Obligations.ChecksumDetectsSingleBitErrors := by
  unfold Obligations.ChecksumDetectsSingleBitErrors
  refine ⟨fun f => ?ownSum, fun f i k h => ?flipped⟩
  case ownSum =>
    rw [answers_validate_iff, checksumValid_iff_payloadSum, payloadSum_set_six]
    simp [payloadSum]
  case flipped =>
    rw [answers_validate_iff] at h ⊢
    rw [flipBit_eq_set]
    exact checksumValid_set_of_ne h (xor_twoPow_ne _ k)

theorem payloadSum_swapBytes (f : Frame) {i j : Fin 7} (hi : i.val < 6) (hj : j.val < 6) :
    payloadSum (swapBytes f i j) = payloadSum f := by
  have hkept : (f.set i f[j])[j] = f[j] := by
    by_cases hij : i = j
    · subst hij; simp
    · exact Vector.getElem_set_ne _ _ (by omega)
  rw [swapBytes, payloadSum_set _ hj, payloadSum_set _ hi, hkept]
  ring

/-- The bit flipped up adds the weight that the bit flipped down subtracts. -/
theorem payloadSum_flipBit_flipBit {f : Frame} {i j : Fin 7} {k : Fin 8} (hi : i.val < 6) (hj : j.val < 6)
    (hij : i ≠ j) (hup : f[i].getLsbD k = false) (hdown : f[j].getLsbD k = true) :
    payloadSum (flipBit (flipBit f i k) j k) = payloadSum f := by
  have hkept : (flipBit f i k)[j] = f[j] := Vector.getElem_set_ne _ _ (by omega)
  rw [flipBit_eq_set _ j, payloadSum_set _ hj, hkept, flipBit_eq_set, payloadSum_set _ hi,
    xor_twoPow_of_clear hup, xor_twoPow_of_set hdown]
  ring

/-- Settles O37: both changes keep the payload's sum and byte 6. -/
theorem checksumMissesCompensatingErrors : Obligations.ChecksumMissesCompensatingErrors := by
  unfold Obligations.ChecksumMissesCompensatingErrors
  refine ⟨fun f i j r hi hj h => ?swapped, fun f i j k r hi hj hij hup hdown h => ?flipped⟩
  all_goals rw [answers_validate_iff] at h ⊢
  case swapped =>
    refine (checksumValid_congr (payloadSum_swapBytes f hi hj) ?_).trans h
    rw [swapBytes, Vector.getElem_set_ne _ _ (by omega), Vector.getElem_set_ne _ _ (by omega)]
  case flipped =>
    refine (checksumValid_congr (payloadSum_flipBit_flipBit hi hj hij hup hdown) ?_).trans h
    rw [flipBit, flipBit, Vector.getElem_set_ne _ _ (by omega), Vector.getElem_set_ne _ _ (by omega)]

/-! ### The cubics in the spec's decimals and as integers over 10^12 (43_frame_interpreter.md R126 to R129) -/

theorem scaled_eq (raw : Nat) : scaled raw = (raw : Rat) / 1000 := by
  rw [scaled, Config.scale]; ring

theorem tx_eq (raw : Nat) :
    tx raw = -278.33 * ((raw : Rat) / 1000) ^ 3 + 491.944 * ((raw : Rat) / 1000) ^ 2 -
      451.444 * ((raw : Rat) / 1000) + 310.668 := by
  rw [tx, scaled_eq, Config.xa3, Config.xa2, Config.xa1, Config.xa0]; ring

theorem ty_eq (raw : Nat) :
    ty raw = -224.2 * ((raw : Rat) / 1000) ^ 3 + 385.9 * ((raw : Rat) / 1000) ^ 2 -
      327.1 * ((raw : Rat) / 1000) + 171 := by
  rw [ty, scaled_eq, Config.ya3, Config.ya2, Config.ya1, Config.ya0]; ring

theorem tx_eq_txE12 (raw : Nat) : tx raw = (txE12 raw : Rat) / 10 ^ 12 := by
  rw [tx_eq, txE12]; push_cast; ring

theorem ty_eq_tyE12 (raw : Nat) : ty raw = (tyE12 raw : Rat) / 10 ^ 12 := by
  rw [ty_eq, tyE12]; push_cast; ring

theorem tempCelsius_eq_tempE12 (f : Frame) : tempCelsius f = (tempE12 f : Rat) / 10 ^ 12 := by
  unfold tempCelsius tempE12
  split
  · exact ty_eq_tyE12 _
  · exact tx_eq_txE12 _

/-- The division by 5 in the Fahrenheit form of R129 is exact. -/
theorem five_dvd_tempE12 (f : Frame) : 5 ∣ tempE12 f := by
  unfold tempE12 txE12 tyE12
  split <;> omega

theorem inUnit_eq (u : TempUnit) (c : Rat) :
    inUnit u c = if u = .fahrenheit then 1.8 * c + 32.0 else c := by
  cases u
  · simp [inUnit]
  · norm_num [inUnit, Config.fMul, Config.fAdd]

theorem temperature_eq_temperatureE12 (u : TempUnit) (f : Frame) :
    temperature u f = (temperatureE12 u f : Rat) / 10 ^ 12 := by
  rw [temperature, tempCelsius_eq_tempE12, inUnit_eq]
  cases u with
  | celsius => simp [temperatureE12]
  | fahrenheit =>
    obtain ⟨n, hn⟩ := five_dvd_tempE12 f
    rw [temperatureE12, hn, Int.mul_ediv_cancel_left n (by norm_num), if_pos rfl]
    push_cast
    ring

/-! ### TEMP and its branch rows as whole next states (43_frame_interpreter.md R124 to R130) -/

theorem exec_temp (f : Frame) (s : State) :
    exec (.temp f) s =
      .next { s with results := s.results ++ [.temperature (temperature s.block.unit f)] } :=
  congrArg Host.Outcome.next (s.commit_delivers s.block _)

theorem exec_tempX {f : Frame} (h : usesY f = false) (s : State) :
    exec (.tempX f) s = .next { s with results := s.results ++ [.temperature (tx (rawX f))] } :=
  (whenSelected_of (i := .tempX f) _ (by simp [Instr.wf, h]) rfl).trans (congrArg _ (s.commit_delivers s.block _))

theorem exec_tempY {f : Frame} (h : usesY f = true) (s : State) :
    exec (.tempY f) s = .next { s with results := s.results ++ [.temperature (ty (rawY f))] } :=
  (whenSelected_of (i := .tempY f) _ h rfl).trans (congrArg _ (s.commit_delivers s.block _))

/-- The Celsius result as the guard on the raw fields selects it, in the spec's decimals. -/
theorem tempCelsius_eq (f : Frame) :
    tempCelsius f =
      if rawX f > 836 ∨ rawY f > 221 then
        -224.2 * ((rawY f : Rat) / 1000) ^ 3 + 385.9 * ((rawY f : Rat) / 1000) ^ 2 -
          327.1 * ((rawY f : Rat) / 1000) + 171
      else
        -278.33 * ((rawX f : Rat) / 1000) ^ 3 + 491.944 * ((rawX f : Rat) / 1000) ^ 2 -
          451.444 * ((rawX f : Rat) / 1000) + 310.668 := by
  simp only [tempCelsius, usesY_iff, gt_iff_lt, tx_eq, ty_eq]

/-- Settles O38: TEMP delivers the selected cubic's value, converted to the unit. -/
theorem tempReturnsSelectedCubic : Obligations.TempReturnsSelectedCubic := by
  unfold Obligations.TempReturnsSelectedCubic
  intro f s
  rw [exec_temp, temperature, inUnit_eq, tempCelsius_eq]
  rfl

/-- Settles O39: each row is selected on its own side of the guard and delivers its cubic; the X-branch's integer is
`txE12`. -/
theorem branchRowsReturnCubics : Obligations.BranchRowsReturnCubics := by
  unfold Obligations.BranchRowsReturnCubics
  intro f s
  refine ⟨fun hguard => ⟨?execX, txE12 (rawX f), ?integer⟩, fun hguard => ?execY⟩
  case execX =>
    rw [exec_tempX (usesY_false_iff.2 hguard), tx_eq]
    rfl
  case integer => exact (tx_eq (rawX f)).symm.trans (tx_eq_txE12 (rawX f))
  case execY =>
    rw [exec_tempY (usesY_iff.2 hguard), ty_eq]
    rfl

/-- Settles O40: SETCFG sets only the unit here, and TEMP converts the one Celsius value. -/
theorem fahrenheitFromCelsius : Obligations.FahrenheitFromCelsius := by
  unfold Obligations.FahrenheitFromCelsius
  intro f s
  refine ⟨tempCelsius f, _, _, _, _, rfl, rfl, exec_temp f _, exec_temp f _, ?celsius, ?fahrenheit⟩
  all_goals simp [temperature, inUnit_eq]

/-- Settles O41: TEMP's value is the integer over 10^12, and `TEMP_EPS` bounds an interval around it. -/
theorem temperatureIntegerForm : Obligations.TemperatureIntegerForm := by
  unfold Obligations.TemperatureIntegerForm
  intro f s v
  have hv : temperature s.block.unit f = v := temperature_eq_temperatureE12 s.block.unit f
  have hinterval : ∀ r, TempRealises s.params s.block.unit f r ↔
      v - s.params.tempEps ≤ r ∧ r ≤ v + s.params.tempEps := fun r => hv ▸ tempRealises_iff
  refine ⟨hv ▸ exec_temp f s, hinterval, ?exactAllowed, ?onlyExact⟩
  case exactAllowed =>
    rintro ⟨-, -, heps⟩
    exact (hinterval v).2 ⟨by linarith, by linarith⟩
  case onlyExact =>
    intro r heps hr
    obtain ⟨hlow, hhigh⟩ := (hinterval r).1 hr
    linarith

/-- Frames that agree on bytes 0 to 3 have the same temperature. -/
theorem temperature_congr {f g : Frame} (h0 : f[0] = g[0]) (h1 : f[1] = g[1]) (h2 : f[2] = g[2]) (h3 : f[3] = g[3])
    (u : TempUnit) : temperature u f = temperature u g := by
  have hx : rawX f = rawX g := by rw [rawX, rawX, h0, h1]
  have hy : rawY f = rawY g := by rw [rawY, rawY, h2, h3]
  rw [temperature, temperature, tempCelsius_eq, tempCelsius_eq, hx, hy]

/-- Settles O43: TEMP's next state depends on the frame through its temperature only. -/
theorem tempReadsOnlyFirstFourBytes : Obligations.TempReadsOnlyFirstFourBytes := by
  unfold Obligations.TempReadsOnlyFirstFourBytes
  intro f g s h0 h1 h2 h3
  exact ⟨_, exec_temp f s, temperature_congr h0 h1 h2 h3 s.block.unit ▸ exec_temp g s⟩

/-! ### The shape of the cubics (43_frame_interpreter.md R131) -/

/-- A cubic with leading coefficient `-p < 0` whose derivative `-3 p x^2 + 2 q x - r` has no real zero is strictly
decreasing: its difference quotient is minus a positive definite form, completed to squares here. -/
theorem cubic_lt_of_lt {p q r c a b : Rat} (hp : 0 < p) (hdisc : q ^ 2 < 3 * p * r) (hab : a < b) :
    -p * b ^ 3 + q * b ^ 2 - r * b + c < -p * a ^ 3 + q * a ^ 2 - r * a + c := by
  have hsquares : 12 * p * (p * (a ^ 2 + a * b + b ^ 2) - q * (a + b) + r) =
      (3 * p * (a + b) - 2 * q) ^ 2 + 3 * p ^ 2 * (a - b) ^ 2 + 4 * (3 * p * r - q ^ 2) := by ring
  have hform : 0 < p * (a ^ 2 + a * b + b ^ 2) - q * (a + b) + r := by
    refine pos_of_mul_pos_right (a := 12 * p) ?_ (by linarith)
    rw [hsquares]
    have := sub_pos.2 hdisc
    positivity
  have hdiff := mul_pos (sub_pos.2 hab) hform
  linarith

theorem tx_strictAnti : StrictAnti tx := by
  intro a b hab
  rw [tx_eq, tx_eq]
  exact cubic_lt_of_lt (by norm_num) (by norm_num) (by gcongr)

theorem ty_strictAnti : StrictAnti ty := by
  intro a b hab
  rw [ty_eq, ty_eq]
  exact cubic_lt_of_lt (by norm_num) (by norm_num) (by gcongr)

/-- The sign of the Y-branch changes between 1023 and 1024. -/
theorem ty_neg_iff (n : Nat) : ty n < 0 ↔ 1024 ≤ n := by
  constructor
  · intro hneg
    by_contra hn
    have hle : ty 1023 ≤ ty n := ty_strictAnti.antitone (by omega)
    have hpos : 0 < ty 1023 := by norm_num [ty_eq]
    linarith
  · intro hn
    have hle : ty n ≤ ty 1024 := ty_strictAnti.antitone hn
    have hneg : ty 1024 < 0 := by norm_num [ty_eq]
    linarith

/-- Settles O42: both cubics decrease strictly everywhere, the end values are evaluated, and the sign change follows. -/
theorem cubicsDecreaseAndBound : Obligations.CubicsDecreaseAndBound := by
  unfold Obligations.CubicsDecreaseAndBound
  refine ⟨fun a b hab _ => tx_strictAnti hab, fun a b hab _ => ty_strictAnti hab, ?_, ?_, ?_, ?_, ?_, ?_,
    fun n _ => ty_neg_iff n⟩
  all_goals norm_num [tx_eq, ty_eq]

end Sys2Proof.Machine
end

section
/-! PROOF. The error classes (60_exceptions.md): what was delivered, noted or traced before is never read back, an
operation notes one class at most and for the cause the spec names, and every event that decodes is performed. -/

namespace Sys2Proof.Machine

/-! ### The streams are never read back (10_state.md R29, 60_exceptions.md R140) -/

/-- The machine with an earlier history put before what its three streams hold. -/
def State.withPast (rs : List Result) (ns : List ErrorClass) (tr : List TraceRecord) (s : State) : State :=
  { s with results := rs ++ s.results, notes := ns ++ s.notes, trace := tr ++ s.trace }

section Past

variable (rs : List Result) (ns : List ErrorClass) (tr : List TraceRecord)

theorem commit_withPast (e : Effect) (s : State) :
    (s.withPast rs ns tr).commit e = (s.commit e).withPast rs ns tr := by
  simp [State.commit, State.withPast]

theorem lowPulse_withPast (s : State) (p : LowPulse) :
    lowPulse (s.withPast rs ns tr) p = (lowPulse s p).withPast rs ns tr := by
  rw [lowPulse, commit_withPast, commit_withPast]
  rfl

theorem foldl_lowPulse_withPast (ps : List LowPulse) (s : State) :
    ps.foldl lowPulse (s.withPast rs ns tr) = (ps.foldl lowPulse s).withPast rs ns tr :=
  List.foldl_hom _ fun s p => lowPulse_withPast rs ns tr s p

/-- An operation is performed after an earlier history exactly where it is performed without it, and leaves the same
machine after that history. -/
theorem exec_withPast_next_iff {i : Instr} {s t : State} :
    exec i (s.withPast rs ns tr) = .next t ↔ ∃ t', exec i s = .next t' ∧ t = t'.withPast rs ns tr := by
  obtain ⟨ps, rfl⟩ | hi := frame_or_ne_frame i
  · simp [exec_frame, foldl_lowPulse_withPast, eq_comm]
  · have hcommit : (s.withPast rs ns tr).commit (rowEffect i s.params s.block) =
        (s.commit (rowEffect i s.params s.block)).withPast rs ns tr := commit_withPast rs ns tr _ s
    have hnext : exec i (s.withPast rs ns tr) = .next t ↔ admits s.select i = true ∧
        t = (s.withPast rs ns tr).commit (rowEffect i s.params s.block) := exec_next_iff hi
    simp [hnext, hcommit, exec_next_iff hi]

end Past

/-- Settles O49: both machines are the one with empty streams after some history, so what the operation adds to each
stream is what it leaves in an empty one. -/
theorem streamsNeverRead : Obligations.StreamsNeverRead := by
  unfold Obligations.StreamsNeverRead
  intro i s t rs ns tr ht
  let s₀ : State := { s with results := [], notes := [], trace := [] }
  have hpast (rs' ns' tr') : s₀.withPast rs' ns' tr' = { s with results := rs', notes := ns', trace := tr' } := by
    simp [s₀, State.withPast]
  have hs : s₀.withPast s.results s.notes s.trace = s := hpast _ _ _
  rw [← hs, exec_withPast_next_iff] at ht
  obtain ⟨t₀, ht₀, rfl⟩ := ht
  refine ⟨t₀.withPast rs ns tr, ?_, rfl, rfl, rfl, t₀.results, t₀.notes, t₀.trace, rfl, rfl, rfl, rfl, rfl, rfl⟩
  rw [← hpast, exec_withPast_next_iff]
  exact ⟨t₀, ht₀, rfl⟩

/-! ### The cause of each error class (60_exceptions.md R141 to R144, R147) -/

/-- What the spec names as the cause of a noted class, with what the operation leaves. -/
def NoteCause (i : Instr) (s t : State) : ErrorClass → Prop
  | .spuriousEdge => t.block = s.block ∧ s.block.en = true ∧ s.block.pend = false ∧
      ∃ now, i = .edgeRise now ∨ i = .edgeRiseSpurious now
  | .badPulse d => s.block.st = .receiving ∧ t.block.st = .idle ∧ t.block.rdy = s.block.rdy ∧
      ((900 ≤ d ∧ d ≤ 1199) ∨ 2001 ≤ d) ∧
      (i = .pAbort d ∨ ∃ now, i = .edgeRise now ∧ s.block.en = true ∧ s.block.pend = true ∧
        d = lowDur s.params.tsMod s.block.t0 now)
  | .overrun => s.block.rdy = true ∧ s.block.position = 55 ∧ s.block.st = .receiving ∧ t.block.F = s.block.F ∧
      ((∃ now x, i = .edgeRise now ∧ s.block.en = true ∧ s.block.pend = true ∧
          Carries x (lowDur s.params.tsMod s.block.t0 now)) ∨
        ∃ x d, i = bitRow x d ∧ Carries x d)
  | .checksumMismatch => ∃ f, i = .validate f ∧ t.results = s.results ++ [.bit false]

/-- The frame a step drops: the slot is full, the block stands at position 55, and F is kept. -/
def DropsFrame (b b' : Block) : Prop := b.rdy = true ∧ b.position = 55 ∧ b'.F = b.F

/-- The reception a pulse of `d` µs aborts: `d` is a violation, and the slot is kept. -/
def AbortsFrame (d : Nat) (b b' : Block) : Prop :=
  b'.st = .idle ∧ b'.rdy = b.rdy ∧ ((900 ≤ d ∧ d ≤ 1199) ∨ 2001 ≤ d)

/-- ACCEPT notes Overrun at most, where it drops the frame. -/
theorem accept_note {x : Bool} {b : Block} {c : ErrorClass} (h : (accept x b).note = some c) :
    c = .overrun ∧ DropsFrame b (accept x b).block := by
  obtain ⟨_, hx⟩ | ⟨_, _, hx⟩ | ⟨_, _, _, hx⟩ | ⟨h7, h6, hrdy, hx⟩ := accept_block_cases x b <;> rw [hx] at h ⊢
  · cases h
  · cases h
  · cases h
  · cases h
    exact ⟨rfl, hrdy, by simp [Block.position, h6, h7], rfl⟩

/-- PULSE notes Overrun on a bit that drops a frame, or BadPulse on an abort, and nothing else. -/
theorem pulse_note {d : Nat} {b : Block} {c : ErrorClass} (h : (pulse d b).note = some c) :
    b.st = .receiving ∧
      ((c = .overrun ∧ DropsFrame b (pulse d b).block ∧ ∃ x, Carries x d) ∨
        (c = .badPulse d ∧ AbortsFrame d b (pulse d b).block)) := by
  obtain ⟨-, -, hp⟩ | ⟨-, -, hp⟩ | ⟨hst, hd, hp⟩ | ⟨hst, hd, hp⟩ | ⟨hst, h0, h1, hp⟩ := pulse_cases d b <;>
    rw [hp] at h ⊢
  · cases h
  · cases h
  · obtain ⟨hc, hdrop⟩ := accept_note h
    exact ⟨hst, .inl ⟨hc, hdrop, false, isBit0_iff.1 hd⟩⟩
  · obtain ⟨hc, hdrop⟩ := accept_note h
    exact ⟨hst, .inl ⟨hc, hdrop, true, isBit1_iff.1 hd⟩⟩
  · cases h
    rw [isBit0_false_iff] at h0
    rw [isBit1_false_iff] at h1
    exact ⟨hst, .inr ⟨rfl, rfl, rfl, by omega⟩⟩

/-- A rising edge notes SpuriousEdge where it is not measured, and what PULSE notes where it is. -/
theorem noteCause_edgeRise {now : Nat} {s : State} {c : ErrorClass}
    (h : (riseEffect s.params.tsMod now s.block).note = some c) :
    NoteCause (.edgeRise now) s (s.commit (riseEffect s.params.tsMod now s.block)) c := by
  obtain ⟨-, hr⟩ | ⟨he, hp, hr⟩ | ⟨he, hp, hr⟩ := riseEffect_cases s.params.tsMod now s.block <;> rw [hr] at h ⊢
  · cases h
  · cases h
    exact ⟨rfl, he, hp, now, .inl rfl⟩
  · obtain ⟨hst, ⟨rfl, ⟨hrdy, hpos, hF⟩, x, hx⟩ | ⟨rfl, hidle, hrdy, hband⟩⟩ := pulse_note h
    · exact ⟨hrdy, hpos, hst, hF, .inl ⟨now, x, rfl, he, hp, hx⟩⟩
    · exact ⟨hst, hidle, hrdy, hband, .inr ⟨now, rfl, he, hp, rfl⟩⟩

/-- The ignored rising edge notes SpuriousEdge when edges are delivered. -/
theorem noteCause_edgeRiseSpurious {now : Nat} {s t : State} {c : ErrorClass}
    (ht : exec (.edgeRiseSpurious now) s = .next t) (h : (spuriousEffect s.block).note = some c) :
    NoteCause (.edgeRiseSpurious now) s t c := by
  obtain ⟨-, hsel, rfl⟩ :=
    whenSelected_next.1 (show whenSelected (.edgeRiseSpurious now) s (spuriousEffect s.block) = .next t from ht)
  obtain ⟨he, hc⟩ := Option.ite_none_right_eq_some.1 h
  cases hc
  exact ⟨rfl, he, by simpa [Instr.selected, he] using hsel, now, .inr rfl⟩

/-- A bit row notes Overrun at most, where it drops the frame. -/
theorem noteCause_bitRow {x : Bool} {d : Nat} {s t : State} {c : ErrorClass} (ht : exec (bitRow x d) s = .next t)
    (h : (bitEffect x d s.block).note = some c) : NoteCause (bitRow x d) s t c := by
  obtain ⟨hst, hcarries, -, rfl⟩ := exec_bitRow_next ht
  obtain ⟨rfl, hrdy, hpos, hF⟩ := accept_note h
  exact ⟨hrdy, hpos, hst, hF, .inr ⟨x, d, rfl, hcarries⟩⟩

/-- P_ABORT notes BadPulse of its own duration, a violation. -/
theorem noteCause_pAbort {d : Nat} {s t : State} {c : ErrorClass} (ht : exec (.pAbort d) s = .next t)
    (h : (abortEffect d s.block).note = some c) : NoteCause (.pAbort d) s t c := by
  obtain ⟨hw, hsel, rfl⟩ :=
    whenSelected_next.1 (show whenSelected (.pAbort d) s (abortEffect d s.block) = .next t from ht)
  simp only [Instr.wf, Instr.selected, Bool.and_eq_true, decide_eq_true_eq] at hw hsel
  cases h
  exact ⟨hsel, rfl, rfl, classify_receiving_violation.1 hw.2, .inl rfl⟩

/-- VALIDATE notes ChecksumMismatch where it delivers 0. -/
theorem noteCause_validate {f : Frame} {s : State} {c : ErrorClass}
    (h : (rowEffect (.validate f) s.params s.block).note = some c) :
    NoteCause (.validate f) s (s.commit (rowEffect (.validate f) s.params s.block)) c := by
  obtain ⟨hinvalid, hc⟩ := Option.ite_none_left_eq_some.1 h
  cases hc
  exact ⟨f, rfl, by simp [rowEffect, hinvalid]⟩

/-- What a row notes, it notes for the cause the spec names. -/
theorem noteCause_of_note {i : Instr} {s t : State} {c : ErrorClass} (ht : exec i s = .next t)
    (hi : ∀ ps, i ≠ .frame ps) (h : (rowEffect i s.params s.block).note = some c) : NoteCause i s t c := by
  obtain ⟨-, hcommit⟩ := (exec_next_iff hi).1 ht
  cases i with
  | edgeRise now => exact hcommit ▸ noteCause_edgeRise h
  | edgeRiseSpurious now => exact noteCause_edgeRiseSpurious ht h
  | pBit0 d => exact noteCause_bitRow (x := false) ht h
  | pBit1 d => exact noteCause_bitRow (x := true) ht h
  | pAbort d => exact noteCause_pAbort ht h
  | validate f => exact hcommit ▸ noteCause_validate h
  | _ => cases h

/-- Settles O50: a row's effect notes one class or none, and a class it notes has its cause. -/
theorem atMostOneErrorClass : Obligations.AtMostOneErrorClass := by
  unfold Obligations.AtMostOneErrorClass
  intro i s t ht hi
  obtain ⟨-, hcommit⟩ := (exec_next_iff hi).1 ht
  have hnotes : t.notes = s.notes ++ (rowEffect i s.params s.block).note.toList := congrArg State.notes hcommit
  cases hnote : (rowEffect i s.params s.block).note with
  | none => exact .inl (by simpa [hnote] using hnotes)
  | some c =>
    have hcause := noteCause_of_note ht hi hnote
    refine .inr ⟨c, by simpa [hnote] using hnotes, ?spurious, ?bad, ?overrun, ?mismatch⟩
    case bad => rintro d rfl; exact hcause
    all_goals rintro rfl; exact hcause

/-! ### Every event that decodes is performed (60_exceptions.md R140) -/

/-- The row an event decodes to is selected by the control state. -/
theorem selected_of_decode_event {c : Select} {e : Event} {i : Instr} (h : decode c (.event e) = .ok i) :
    i.selected c = true := by
  cases e with
  | rise now =>
    simp only [decode] at h
    split at h
    · split at h
      next hsel => cases h; exact hsel
      next hsel => cases h; simpa only [Instr.selected, Bool.not_eq_true', Bool.not_eq_true] using hsel
    · cases h
  | fall _ | frame _ =>
    simp only [decode] at h
    split at h <;> cases h
    rfl
  | _ => cases h; rfl

/-- A row with operands of its row is performed where it is selected. -/
theorem admits_of_wf_selected {c : Select} {i : Instr} (hw : i.wf c.tsMod = true) (hs : i.selected c = true) :
    admits c i = true := by
  unfold admits
  split <;> simp only [hw, hs, Bool.and_self]

/-- An admitted row answers a next state, in which the events to come and the parameters are as before. -/
theorem exec_of_admits {i : Instr} {s : State} (h : admits s.select i = true) :
    ∃ t, exec i s = .next t ∧ t.input = s.input ∧ t.params = s.params := by
  obtain ⟨ps, rfl⟩ | hi := frame_or_ne_frame i
  · obtain ⟨-, -, -, hparams, hinput, -⟩ := edgeKeeps_foldl ps s
    exact ⟨_, exec_frame ps s, hinput, hparams⟩
  · exact ⟨_, (exec_next_iff hi).2 ⟨h, rfl⟩, rfl, rfl⟩

/-- Settles O51: the row an event decodes to is well-formed and selected, so the step performs it. -/
theorem everyDecodedEventCompletes : Obligations.EveryDecodedEventCompletes := by
  unfold Obligations.EveryDecodedEventCompletes
  intro e rest s i hin hd
  rw [step_event hin hd]
  exact exec_of_admits (s := { s with input := rest })
    (admits_of_wf_selected (wf_of_decode_event hd) (selected_of_decode_event hd))

end Sys2Proof.Machine
end

section
/-! PROOF. Hazards (70_reset_and_hazards.md): a transmission that meets a stale reception. -/

namespace Sys2Proof.Machine

/-! ### A transmission met while a stale reception is open (41_decoder_fsm.md R102, 70_reset_and_hazards.md R189) -/

section StaleReception

variable {s : State}

/-- A low pulse whose duration is a violation aborts the open reception. -/
theorem lowPulse_violation {p : LowPulse} (he : s.block.en = true) (hst : s.block.st = .receiving)
    (hd : p.dur < s.params.tsMod) (hband : (900 ≤ p.dur ∧ p.dur ≤ 1199) ∨ 2001 ≤ p.dur) :
    lowPulse s p = s.commit (abortEffect p.dur { s.block with t0 := p.fall, pend := false }) := by
  rw [lowPulse_of_lt he hd, pulse_violation (b := { s.block with t0 := p.fall, pend := false }) hst hband]

/-- In IDLE a low pulse too short for a start marker leaves its edges' `t0` and `pend` and nothing else. -/
theorem lowPulse_short_idle {p : LowPulse} (hm : 0 < s.params.tsMod) (he : s.block.en = true)
    (hst : s.block.st = .idle) (hd : p.dur < 7000) :
    lowPulse s p = { s with block := { s.block with t0 := p.fall, pend := false } } := by
  have hclass : classify .idle (p.dur % s.params.tsMod) = .ignored :=
    classify_idle_ignored.2 (.inl ((Nat.mod_le _ _).trans_lt hd))
  rw [lowPulse_enabled p hm he, pulse, hst, hclass]
  exact State.commit_block_only s _

/-- In IDLE, with no measurement pending, short low pulses leave the last falling edge in `t0` and nothing else. -/
theorem foldl_lowPulse_short_idle {ps : List LowPulse} (hm : 0 < s.params.tsMod) (he : s.block.en = true)
    (hst : s.block.st = .idle) (hp : s.block.pend = false) (hd : ∀ p ∈ ps, p.dur < 7000) :
    ps.foldl lowPulse s = { s with block := { s.block with t0 := lastFall s.block.t0 ps } } := by
  induction ps generalizing s with
  | nil => rfl
  | cons p ps ih =>
    obtain ⟨hshort, hrest⟩ := List.forall_mem_cons.1 hd
    rw [List.foldl_cons, lowPulse_short_idle hm he hst hshort, ← hp]
    exact ih (s := { s with block := { s.block with t0 := p.fall } }) hm he hst hp hrest

/-- Pulses that carry bits are too short for a start marker. -/
theorem short_of_carries {ps : List LowPulse} {bs : List Bool}
    (h : List.Forall₂ (fun d x => Carries x d) (ps.map LowPulse.dur) bs) : ∀ p ∈ ps, p.dur < 7000 := by
  intro p hp
  obtain ⟨x, hx⟩ := carries_of_mem h p.dur (List.mem_map_of_mem hp)
  exact (Carries.le hx).trans_lt (by decide)

end StaleReception

/-- Settles O26: the start marker is a violation in RECEIVING and aborts, and the bits after it are ignored in IDLE. -/
theorem transmissionAfterTruncatedOneLost : Obligations.TransmissionAfterTruncatedOneLost := by
  unfold Obligations.TransmissionAfterTruncatedOneLost
  intro f ps s ht hok he hst
  cases ps with
  | nil => simp [TransmitsOnLine, Transmits] at ht
  | cons p ps =>
    obtain ⟨hstart, hbits⟩ := transmits_cons_iff.1 ht.1
    obtain ⟨hlo, hhi⟩ := isStart_iff.1 hstart
    let b : Block := { s.block with t0 := p.fall, pend := false }
    have habort : lowPulse s p = s.commit (abortEffect p.dur b) :=
      lowPulse_violation he hst (hhi.trans_lt hok.1) (.inr (by omega))
    have hignored := foldl_lowPulse_short_idle (s := s.commit (abortEffect p.dur b)) (Nat.zero_lt_of_lt hok.1) he rfl
      rfl (short_of_carries hbits)
    refine ⟨_, p.dur, exec_frame (p :: ps) s, rfl, ?_⟩
    rw [List.foldl_cons, habort, hignored]
    exact ⟨rfl, rfl, rfl, List.append_nil _, rfl⟩

end Sys2Proof.Machine
end

section
/-! PROOF. Both directions of the decoder and of the lines of a trace (30_encoding.md), a step as the row its event
selects (00_scope.md), the measured rising edge and what the edge context keeps (40_edge_capture.md, 10_state.md), reset and the
control operations (70_reset_and_hazards.md, 10_state.md), and the rows nothing selects (30_encoding.md R68). -/

namespace Sys2Proof.Machine

/-! ### The decoder and its encoder (30_encoding.md R61, R62, R68) -/

/-- Every well-formed selected row decodes from its own stimulus. -/
theorem decode_encode (i : Instr) : Laws.RowRoundTrip.Statement i := by
  cases i with
  | reset => exact Laws.RowRoundTrip.reset
  | begin => exact Laws.RowRoundTrip.begin
  | setcfg u d => exact Laws.RowRoundTrip.setcfg u d
  | edgeFall now => exact Laws.RowRoundTrip.edgeFall now
  | edgeRiseSpurious now => exact Laws.RowRoundTrip.edgeRiseSpurious now
  | edgeRise now => exact Laws.RowRoundTrip.edgeRise now
  | pStart d => exact Laws.RowRoundTrip.pStart d
  | pIdleIgnore d => exact Laws.RowRoundTrip.pIdleIgnore d
  | pBit0 d => exact Laws.RowRoundTrip.pBit0 d
  | pBit1 d => exact Laws.RowRoundTrip.pBit1 d
  | pAbort d => exact Laws.RowRoundTrip.pAbort d
  | avail => exact Laws.RowRoundTrip.avail
  | take => exact Laws.RowRoundTrip.take
  | validate f => exact Laws.RowRoundTrip.validate f
  | temp f => exact Laws.RowRoundTrip.temp f
  | tempX f => exact Laws.RowRoundTrip.tempX f
  | tempY f => exact Laws.RowRoundTrip.tempY f
  | frame ps => exact Laws.RowRoundTrip.frame ps

/-- The row an event decodes to has that event as its stimulus. -/
theorem encode_of_decode_event {c : Select} {e : Event} {i : Instr} (h : decode c (.event e) = .ok i) :
    encode i = .event e := by
  cases e with
  | rise now =>
    simp only [decode] at h
    split at h
    · split at h <;> cases h <;> rfl
    · cases h
  | fall _ | frame _ =>
    simp only [decode] at h
    split at h <;> cases h
    rfl
  | _ => cases h; rfl

/-- In IDLE a pulse is a start marker or ignored. -/
theorem classify_idle_cases (d : Nat) : classify .idle d = .startMarker ∨ classify .idle d = .ignored := by
  rw [classify_idle_start, classify_idle_ignored]
  omega

/-- In RECEIVING a pulse is a bit or a violation. -/
theorem classify_receiving_cases (d : Nat) :
    classify .receiving d = .bit0 ∨ classify .receiving d = .bit1 ∨ classify .receiving d = .violation := by
  rw [classify_receiving_bit0, classify_receiving_bit1, classify_receiving_violation]
  omega

/-- What it is for a stimulus to select a row: the row is well-formed, the control state selects it, and the stimulus is
its own. -/
def Selects (c : Select) (x : Stimulus) (i : Instr) : Prop :=
  i.wf c.tsMod = true ∧ i.selected c = true ∧ encode i = x

/-- A duration in range selects the row of its class. -/
theorem selects_decodePulse {c : Select} {d : Nat} (hd : d < c.tsMod) :
    Selects c (.pulse d) (decodePulse c.st d) := by
  cases hst : c.st with
  | idle =>
    obtain h | h := classify_idle_cases d <;>
      simp [Selects, decodePulse, h, Instr.wf, Instr.selected, encode, hd, hst]
  | receiving =>
    obtain h | h | h := classify_receiving_cases d <;>
      simp [Selects, decodePulse, h, Instr.wf, Instr.selected, encode, hd, hst]

/-- A reading selects the branch row on its side of the guard. -/
theorem selects_decodeBranch (c : Select) (f : Frame) : Selects c (.reading f) (decodeBranch f) := by
  cases h : usesY f <;> simp [Selects, decodeBranch, h, Instr.wf, Instr.selected, encode]

/-- A stimulus selects the row it decodes to. -/
theorem selects_of_decode {c : Select} {x : Stimulus} {i : Instr} (h : decode c x = .ok i) : Selects c x i := by
  cases x with
  | event e => exact ⟨wf_of_decode_event h, selected_of_decode_event h, encode_of_decode_event h⟩
  | pulse d =>
    simp only [decode] at h
    split at h
    next hd => cases h; exact selects_decodePulse hd
    next => cases h
  | reading f => cases h; exact selects_decodeBranch c f

/-- Settles O52: each row decodes from its own stimulus, and each stimulus selects the row it decodes to. -/
theorem rowSelectionRoundTrip : Obligations.RowSelectionRoundTrip := by
  unfold Obligations.RowSelectionRoundTrip
  exact ⟨fun c i => decode_encode i c, fun _ _ _ => selects_of_decode⟩

/-! ### The lines of a trace (30_encoding.md R72, R73) -/

/-- The words of an event's line are a name and operands that read as that event. -/
theorem eventWords_reads (m t : Nat) {e : Event} {ws : List (List Char)} (h : Trace.eventWords e = some ws) :
    ∃ k args, ws = k.spelling :: args ∧ (∀ w ∈ args, Trace.IsWord w) ∧ Trace.readOperation m t k args = some e := by
  cases e with
  | reset => cases h; exact ⟨.reset, [], rfl, by simp, rfl⟩
  | begin => cases h; exact ⟨.begin, [], rfl, by simp, rfl⟩
  | setcfg u d =>
    cases h
    refine ⟨.setcfg, _, rfl, ?_, ?_⟩
    · have hletter : ∀ c ∈ ['C', 'F', '0', '1'], Trace.IsWord [c] := by simp [Trace.IsWord, Trace.plain]
      cases u <;> cases d <;> simp [hletter]
    · cases u <;> cases d <;> rfl
  | fall now =>
    cases h
    exact ⟨.fall, [Trace.writeNat now], rfl, by simpa using Trace.writeNat_isWord now,
      by simp [Trace.readOperation, Trace.readNat_writeNat]⟩
  | rise now =>
    cases h
    exact ⟨.rise, [Trace.writeNat now], rfl, by simpa using Trace.writeNat_isWord now,
      by simp [Trace.readOperation, Trace.readNat_writeNat]⟩
  | avail => cases h; exact ⟨.avail, [], rfl, by simp, rfl⟩
  | take => cases h; exact ⟨.take, [], rfl, by simp, rfl⟩
  | validate f =>
    cases h
    exact ⟨.validate, Trace.writeFrame f, rfl, Trace.writeFrame_isWord f,
      by simp [Trace.readOperation, Trace.readFrame_writeFrame]⟩
  | temp f =>
    cases h
    exact ⟨.temp, Trace.writeFrame f, rfl, Trace.writeFrame_isWord f,
      by simp [Trace.readOperation, Trace.readFrame_writeFrame]⟩
  | frame ps => cases h

/-- Settles O53: a written line is its words, and a name with its operands is read as the operation they spell. -/
theorem traceLineRoundTrip : Obligations.TraceLineRoundTrip := by
  unfold Obligations.TraceLineRoundTrip
  refine ⟨fun m t e l h => ?event, fun m t f => ?frame⟩
  case event =>
    obtain ⟨ws, hws, rfl⟩ := Option.map_eq_some_iff.1 h
    obtain ⟨k, args, rfl, hargs, hread⟩ := eventWords_reads m t hws
    exact Trace.readLine_words m t k args e hargs hread
  case frame =>
    exact Trace.readLine_words m t .frame (Trace.writeFrame f) _ (Trace.writeFrame_isWord f)
      (by simp [Trace.readOperation, Trace.readFrame_writeFrame])

/-! ### The measured rising edge (40_edge_capture.md R83, R84, R86) -/

/-- A measured rising edge takes over PULSE of the measured duration, `pend` cleared. -/
theorem exec_edgeRise_measured {s : State} (now : Nat) (he : s.block.en = true) (hp : s.block.pend = true) :
    exec (.edgeRise now) s =
      .next (s.commit (pulse (lowDur s.params.tsMod s.block.t0 now) { s.block with pend := false })) := by
  rw [exec_edgeRise, riseEffect_measured _ _ he hp]

/-- Settles O8: the measured duration is `d`, and both sides take over PULSE of it, `pend` cleared. -/
theorem measuredRiseRunsSelectedPulse : Obligations.MeasuredRiseRunsSelectedPulse := by
  unfold Obligations.MeasuredRiseRunsSelectedPulse
  intro now d s he hp hd hres
  rw [exec_edgeRise_measured now he hp, lowDur_eq hd hres]
  exact (exec_decodePulse (s := { s with block := { s.block with pend := false } }) hd).symm

/-- Settles O9: PULSE keeps `pend`, cleared before it, `t0` and the control bits, and delivers nothing. -/
theorem measuredRiseCompletes : Obligations.MeasuredRiseCompletes := by
  unfold Obligations.MeasuredRiseCompletes
  intro now s he hp
  obtain ⟨hpend, ht0, hen, hunit, hdebug, hresult⟩ :=
    pulse_keeps (lowDur s.params.tsMod s.block.t0 now) { s.block with pend := false }
  refine ⟨_, exec_edgeRise_measured now he hp, rfl, hpend, ht0, hen.trans he, hunit, hdebug, rfl, rfl, ?_⟩
  simp [hresult]

/-- Settles O10: the residue of the low time leads from the residue of the fall to that of the rise. -/
theorem lowTimeMeasuredAsResidue : Obligations.LowTimeMeasuredAsResidue := by
  unfold Obligations.LowTimeMeasuredAsResidue
  intro T L s hm he
  have hfall : exec (.edgeFall (T % s.params.tsMod)) s =
      .next { s with block := { s.block with t0 := T % s.params.tsMod, pend := true } } := by
    rw [exec_edgeFall, fallEffect_enabled _ he, State.commit_block_only]
  have hres : (T % s.params.tsMod + L % s.params.tsMod) % s.params.tsMod =
      (T + L) % s.params.tsMod % s.params.tsMod := by
    rw [← Nat.add_mod, Nat.mod_mod]
  exact ⟨_, hfall, measuredRiseRunsSelectedPulse _ _ _ he rfl (Nat.mod_lt _ hm) hres⟩

/-! ### The position of the next bit (10_state.md R12) -/

/-- A bit before the 56th moves the position by one; the 56th ends at position 0 of IDLE. -/
theorem accept_position (x : Bool) (b : Block) :
    (b.position < 55 → (accept x b).block.st = b.st ∧ (accept x b).block.position = b.position + 1) ∧
    (b.position = 55 → (accept x b).block.st = .idle ∧ (accept x b).block.position = 0) := by
  have hpos : b.position = 8 * b.bi.val + b.bc.val := rfl
  obtain ⟨hbc, hx⟩ | ⟨h7, hbi, hx⟩ | ⟨h7, h6, -, hx⟩ | ⟨h7, h6, -, hx⟩ := accept_block_cases x b <;> rw [hx]
  · exact ⟨fun _ => ⟨rfl, rfl⟩, fun h => by omega⟩
  · exact ⟨fun _ => ⟨rfl, show 8 * (b.bi.val + 1) + 0 = b.position + 1 by omega⟩, fun h => by omega⟩
  · exact ⟨fun h => by omega, fun _ => ⟨rfl, rfl⟩⟩
  · exact ⟨fun h => by omega, fun _ => ⟨rfl, rfl⟩⟩

/-- Settles O23: a bit row that is performed is ACCEPT in RECEIVING. -/
theorem acceptedBitAdvancesPosition : Obligations.AcceptedBitAdvancesPosition := by
  unfold Obligations.AcceptedBitAdvancesPosition
  intro x d s t ht
  obtain ⟨hst, -, -, rfl⟩ := exec_bitRow_next ht
  exact hst ▸ accept_position x s.block

/-! ### No time-out, and a step as the row its event selects (41_decoder_fsm.md R103, 00_scope.md R6) -/

/-- Settles O29: by induction on the steps, each of which leaves the machine as it is. -/
theorem noTimeOut : Obligations.NoTimeOut := by
  unfold Obligations.NoTimeOut
  intro n s h
  induction n with
  | zero => rfl
  | succ n ih => rw [run_succ_of_step n (step_idle h), ih]

/-- Settles O58: the three things a step can meet, an empty input, an event that decodes, an event that does not. -/
theorem stepRunsDecodedRow : Obligations.StepRunsDecodedRow := by
  unfold Obligations.StepRunsDecodedRow
  exact fun s => ⟨step_idle, fun e rest hin => ⟨fun _ hd => step_event hin hd, fun _ hd => step_undecodable hin hd⟩⟩

/-! ### What the edge context keeps (10_state.md R27) -/

/-- The four operations of the edge context. -/
theorem edge_cases {i : Instr} (h : i.issuer = .edgeContext) :
    (∃ now, i = .edgeFall now) ∨ (∃ now, i = .edgeRiseSpurious now) ∨ (∃ now, i = .edgeRise now) ∨
      ∃ ps, i = .frame ps := by
  cases i <;> simp [Instr.issuer] at h ⊢

/-- F is written only together with setting `rdy` from 0. -/
def WritesFOnlyPublishing (b b' : Block) : Prop := b'.F = b.F ∨ (b.rdy = false ∧ b'.rdy = true)

theorem SlotRule.writesFOnlyPublishing {b b' : Block} (h : SlotRule b b') : WritesFOnlyPublishing b b' := by
  obtain ⟨hF, -⟩ | ⟨h0, h1, -, -⟩ := h.2
  · exact .inl hF
  · exact .inr ⟨h0, h1⟩

/-- A list of low pulses writes F only by publishing: the first pulse that does sets `rdy`, and no later one clears
it. -/
theorem foldl_lowPulse_writesFOnlyPublishing (ps : List LowPulse) (s : State) :
    WritesFOnlyPublishing s.block (ps.foldl lowPulse s).block := by
  induction ps generalizing s with
  | nil => exact .inl rfl
  | cons p ps ih =>
    obtain ⟨hF, hrdy⟩ | ⟨h0, h1, -, -⟩ := (lowPulse_slot s p).2
    · have hrest := ih (lowPulse s p)
      rwa [WritesFOnlyPublishing, hF, hrdy] at hrest
    · obtain ⟨-, -, -, -, -, -, hslot⟩ := edgeKeeps_foldl ps (lowPulse s p)
      exact .inr ⟨h0, (hslot h1).1⟩

/-- Every operation of the edge context keeps what the edges keep. -/
theorem edgeKeeps_of_edgeContext {i : Instr} {s t : State} (h : i.issuer = .edgeContext) (ht : exec i s = .next t) :
    EdgeKeeps s t := by
  obtain ⟨now, rfl⟩ | ⟨now, rfl⟩ | ⟨now, rfl⟩ | ⟨ps, rfl⟩ := edge_cases h
  · cases ht
    exact edgeKeeps_fall now s
  · obtain ⟨-, -, rfl⟩ := whenSelected_next.1 (show whenSelected (.edgeRiseSpurious now) s _ = .next t from ht)
    simp [EdgeKeeps, spuriousEffect]
  · cases ht
    exact edgeKeeps_rise now s
  · cases ht
    exact edgeKeeps_foldl ps s

/-- Every operation of the edge context writes F only by publishing. -/
theorem writesFOnlyPublishing_of_edgeContext {i : Instr} {s t : State} (h : i.issuer = .edgeContext)
    (ht : exec i s = .next t) : WritesFOnlyPublishing s.block t.block := by
  obtain ⟨ps, rfl⟩ | hi := frame_or_ne_frame i
  · cases ht
    exact foldl_lowPulse_writesFOnlyPublishing ps s
  · obtain ⟨-, rfl⟩ := (exec_next_iff hi).1 ht
    have hreset : i ≠ .reset := by rintro rfl; cases h
    have htake : i ≠ .take := by rintro rfl; cases h
    exact (rowEffect_slot hreset htake s.params s.block).writesFOnlyPublishing

/-- Settles O45: the edge operations and PULSE keep what the edges keep, and write F only by publishing. -/
theorem edgeOperationsFrame : Obligations.EdgeOperationsFrame := by
  unfold Obligations.EdgeOperationsFrame
  intro i s t hi ht
  have hkeeps : EdgeKeeps s t ∧ WritesFOnlyPublishing s.block t.block := by
    obtain hedge | ⟨d, rfl⟩ := hi
    · exact ⟨edgeKeeps_of_edgeContext hedge ht, writesFOnlyPublishing_of_edgeContext hedge ht⟩
    · obtain ⟨rfl, -⟩ := exec_decodePulse_next ht
      exact ⟨edgeKeeps_pulse d s, (pulse_slot d s.block).writesFOnlyPublishing⟩
  obtain ⟨⟨hen, hunit, hdebug, hparams, hinput, hresults, hslot⟩, hF⟩ := hkeeps
  exact ⟨hen, hunit, hdebug, hparams, hinput, hresults, fun hrdy => (hslot hrdy).1, hF⟩

/-! ### Reset (70_reset_and_hazards.md R170, 10_state.md R18, R30) -/

/-- Settles O1: RESET takes over the power-on block. -/
theorem resetGivesPowerOnBlock : Obligations.ResetGivesPowerOnBlock := by
  unfold Obligations.ResetGivesPowerOnBlock
  exact fun s => congrArg Host.Outcome.next (s.commit_block_only (Block.powerOn s.params))

/-- Settles O2: the fields of the power-on block and of the default parameters. -/
theorem machineAfterReset : Obligations.MachineAfterReset := by
  unfold Obligations.MachineAfterReset
  exact ⟨rfl, rfl, rfl, rfl, rfl, rfl, rfl, rfl, rfl, rfl, rfl, rfl, rfl, rfl⟩

/-- The default parameters meet the constraints of 00_scope.md R5. -/
theorem params_default_ok : Params.default.Ok :=
  ⟨by decide, Nat.mod_lt _ (by decide), le_refl 0⟩

/-- Settles O59: the power-on block of legal parameters is legal. -/
theorem resetIsLegal : Obligations.ResetIsLegal := by
  unfold Obligations.ResetIsLegal
  exact ⟨params_default_ok, powerOn_legal params_default_ok⟩

/-! ### BEGIN, SETCFG and a falling edge (40_edge_capture.md R80, R81, 10_state.md R26) -/

theorem exec_begin (s : State) : exec .begin s = .next { s with block := { s.block with en := true } } :=
  congrArg Host.Outcome.next (s.commit_block_only _)

/-- Settles O3: BEGIN sets `CFG.EN`, and setting it again changes nothing. -/
theorem beginSetsOnlyEnable : Obligations.BeginSetsOnlyEnable := by
  unfold Obligations.BeginSetsOnlyEnable
  exact fun s => ⟨_, exec_begin s, rfl, exec_begin _⟩

/-- Settles O4: SETCFG takes over the block with the two fields written. -/
theorem setcfgWritesUnitAndDebug : Obligations.SetcfgWritesUnitAndDebug := by
  unfold Obligations.SetcfgWritesUnitAndDebug
  exact fun u d s => congrArg Host.Outcome.next (s.commit_block_only { s.block with unit := u, debug := d })

/-- Settles O5: a falling edge delivered writes `t0` and `pend`, one not delivered writes nothing. -/
theorem fallingEdgeRecordsTimestamp : Obligations.FallingEdgeRecordsTimestamp := by
  unfold Obligations.FallingEdgeRecordsTimestamp
  refine fun now s => ⟨fun he => ?_, fun he => ?_⟩
  · rw [exec_edgeFall, fallEffect_enabled now he, State.commit_block_only]
  · rw [exec_edgeFall, fallEffect_disabled now he, State.commit_nothing]

/-! ### Rows that nothing selects (30_encoding.md R68) -/

/-- Settles O20: where its operand or the control state does not select an internal row, the row is refused. -/
theorem unselectedRowRefused : Obligations.UnselectedRowRefused := by
  unfold Obligations.UnselectedRowRefused
  intro d f s
  refine ⟨fun h => whenSelected_not _ ?start, fun h => whenSelected_not _ ?ignore, fun h => whenSelected_not _ ?bit0,
    fun h => whenSelected_not _ ?bit1, fun h => whenSelected_not _ ?abort, fun h => whenSelected_not _ ?spurious,
    fun h => whenSelected_not _ ?tempX, fun h => whenSelected_not _ ?tempY⟩
  case tempX => simp [Instr.wf, usesY_iff.2 h]
  case tempY => exact fun hsel => h (usesY_iff.1 hsel.1)
  case start | ignore | bit0 | bit1 | abort | spurious =>
    simp only [Instr.wf, Instr.selected, Bool.and_eq_true, decide_eq_true_eq, classify_idle_start,
      classify_idle_ignored, classify_receiving_bit0, classify_receiving_bit1, classify_receiving_violation,
      Bool.not_eq_true', Bool.and_eq_false_iff]
    simp only [State.select_st, State.select_en, State.select_pend]
    tauto

/-! ### VALIDATE and TEMP (43_frame_interpreter.md R120) -/

/-- Settles O46: both leave the block, VALIDATE delivers a bit of the bytes, TEMP a value of the bytes and the unit. -/
theorem interpreterIsPure : Obligations.InterpreterIsPure := by
  unfold Obligations.InterpreterIsPure
  intro f s s' hunit
  have htemp' := exec_temp f s'
  rw [hunit] at htemp'
  exact ⟨.bit (checksumValid f), .temperature (temperature s.block.unit f), _, _, _, _, exec_validate f s,
    exec_validate f s', exec_temp f s, htemp', rfl, rfl, rfl, rfl, rfl, rfl, rfl, rfl⟩

end Sys2Proof.Machine
end
